-- ==== Sys2Proof/Word.lean ====
section
/-! DEFINITION. The word types of CA-CORE (00_scope.md R7, R9). -/

namespace Sys2Proof

/-- A register value, a memory cell or an instruction byte: an unsigned integer 0..255 (00_scope.md R9). -/
abbrev Byte := BitVec 8

/-- The program counter's nine bits; legal values are 0..256 (00_scope.md R7, R9; log entry 15). -/
abbrev Pc := BitVec 9

/-- A register index 0..7 that `chkreg` has checked (00_scope.md R10, 10_state.md R20). -/
abbrev Reg := Fin 8

end Sys2Proof
end

