-- ==== Sys2Proof/Config.lean ====
section
/-! DEFINITION. The implementation parameters of CA-CORE (00_scope.md R7): the ones the spec fixes, as constants, and
the types of the named ones that "a model takes as an argument". Their default values stand in Sys2Proof/Decode.lean. -/

namespace Sys2Proof

/-- The thirteen mnemonics (00_scope.md R2), in the order of the opcode map of 30_encoding.md R65. -/
inductive Op where
  | ldi | prn | add | mul | push | pop | call | ret | jmp | jeq | jne | cmp | hlt
deriving DecidableEq, Repr

/-- `OPCODE_MAP`: the opcode byte of each mnemonic (30_encoding.md R65, R66; 92_eei_decisions.md D1). -/
structure OpcodeMap where
  ldi : Byte
  prn : Byte
  add : Byte
  mul : Byte
  push : Byte
  pop : Byte
  call : Byte
  ret : Byte
  jmp : Byte
  jeq : Byte
  jne : Byte
  cmp : Byte
  hlt : Byte
deriving DecidableEq, Repr

/-- `OVERFLOW_POLICY`: what ADD and MUL do with a result above 255 (42_arithmetic.md R112; 92_eei_decisions.md D3). -/
inductive OverflowPolicy where
  | wrap
  | fault
deriving DecidableEq, Repr

/-- `RET_SCRATCH`: the register that RET pops into (44_subroutine.md R131; 92_eei_decisions.md D10). -/
inductive RetScratch where
  | operandA
  | internal
deriving DecidableEq, Repr

/-- The named parameters of 00_scope.md R7 that change what the machine does. -/
structure Config where
  opcodes : OpcodeMap
  overflow : OverflowPolicy
  retScratch : RetScratch
deriving DecidableEq, Repr

/-- `FLAGS_REG` (00_scope.md R7, 10_state.md R22). -/
abbrev flagsReg : Reg := 6

/-- `SP_REG` (00_scope.md R7, 10_state.md R23). -/
abbrev spReg : Reg := 7

/-- `SP_RESET` = `MEMSIZE` - 1 (00_scope.md R7, 10_state.md R33). -/
abbrev spReset : Byte := 255

end Sys2Proof
end

