-- ==== Sys2Proof/Syntax.lean ====
section
/-! DEFINITION. The instructions of CA-CORE: one constructor per row of spec/opcode_table.json. An operand is the
operand BYTE as fetched, because the spec checks a register operand in the handler (`chkreg`, 00_scope.md R10) and not in
the decoder (30_encoding.md R63; log entry 12). -/

namespace Sys2Proof

/-- An instruction with its operand bytes (30_encoding.md R61, R63). RET has none of its own: the byte its scratch register
is named by lies outside the instruction and is read from the latch OPA (44_subroutine.md R131). -/
inductive Instr where
  | ldi (a imm : Byte)
  | prn (a : Byte)
  | add (a b : Byte)
  | mul (a b : Byte)
  | push (a : Byte)
  | pop (a : Byte)
  | call (a : Byte)
  | ret
  | jmp (a : Byte)
  | jeq (a : Byte)
  | jne (a : Byte)
  | cmp (a b : Byte)
  | hlt
deriving DecidableEq, Repr

end Sys2Proof
end

