-- ==== Sys2Proof/WellFormed.lean ====
section
/-! DEFINITION. Which instruction terms are well formed: every register operand byte names a register (30_encoding.md R63,
R69). An ill-formed term still decodes and runs: its handler raises IllegalRegister (60_exceptions.md R175). -/

namespace Sys2Proof

/-- The operand byte names one of R0..R7 (30_encoding.md R63). -/
def namesRegister (b : Byte) : Bool := decide (b.toNat < 8)

/-- Every operand that 30_encoding.md R63 marks "register" names one. -/
def Instr.wf : Instr → Bool
  | .ldi a _ => namesRegister a
  | .prn a => namesRegister a
  | .add a b => namesRegister a && namesRegister b
  | .mul a b => namesRegister a && namesRegister b
  | .push a => namesRegister a
  | .pop a => namesRegister a
  | .call a => namesRegister a
  | .ret => true
  | .jmp a => namesRegister a
  | .jeq a => namesRegister a
  | .jne a => namesRegister a
  | .cmp a b => namesRegister a && namesRegister b
  | .hlt => true

end Sys2Proof
end

