-- ==== Sys2Proof/Decode.lean ====
section
/-! DEFINITION. The opcode map, the decoder and the encoder (30_encoding.md), the default parameter values
(00_scope.md R7), and the host's entry point `decodeTableWord`. -/

namespace Sys2Proof

/-- The default `OPCODE_MAP` (30_encoding.md R65). PRESUMED: the spec takes these bytes from general knowledge
(92_eei_decisions.md D1); log entry 4. -/
def defaultOpcodeMap : OpcodeMap where
  ldi := 0x82
  prn := 0x47
  add := 0xA0
  mul := 0xA2
  push := 0x45
  pop := 0x46
  call := 0x50
  ret := 0x11
  jmp := 0x54
  jeq := 0x55
  jne := 0x56
  cmp := 0xA7
  hlt := 0x01

/-- The default parameters (00_scope.md R7): log entries 4, 5 and 6. -/
def defaultConfig : Config where
  opcodes := defaultOpcodeMap
  overflow := .wrap
  retScratch := .operandA

/-- Bits 7:6 of an opcode byte: the operand-byte count (00_scope.md R8, 30_encoding.md R62). -/
def topBits (opcode : Byte) : Nat := (opcode >>> 6).toNat

/-- The instruction width, "always recomputed from the opcode's top two bits" (30_encoding.md R60). -/
def widthOf (opcode : Byte) : Nat := 1 + topBits opcode

/-- The thirteen mnemonics, in the order of 30_encoding.md R65. -/
def Op.all : List Op :=
  [.ldi, .prn, .add, .mul, .push, .pop, .call, .ret, .jmp, .jeq, .jne, .cmp, .hlt]

/-- The byte that the map binds to a mnemonic. -/
def OpcodeMap.byteOf (m : OpcodeMap) : Op → Byte
  | .ldi => m.ldi
  | .prn => m.prn
  | .add => m.add
  | .mul => m.mul
  | .push => m.push
  | .pop => m.pop
  | .call => m.call
  | .ret => m.ret
  | .jmp => m.jmp
  | .jeq => m.jeq
  | .jne => m.jne
  | .cmp => m.cmp
  | .hlt => m.hlt

/-- The dispatch table's lookup, on the whole byte (30_encoding.md R62, 40_cycle.md R83); none for an unbound byte. -/
def OpcodeMap.lookup (m : OpcodeMap) (b : Byte) : Option Op :=
  Op.all.find? fun o => m.byteOf o == b

/-- How many operand bytes a mnemonic has (30_encoding.md R63, R66 (b)). -/
def Op.operandCount : Op → Nat
  | .ldi => 2
  | .add => 2
  | .mul => 2
  | .cmp => 2
  | .prn => 1
  | .push => 1
  | .pop => 1
  | .call => 1
  | .jmp => 1
  | .jeq => 1
  | .jne => 1
  | .ret => 0
  | .hlt => 0

/-- The four constraints on an opcode map (30_encoding.md R66): (a) distinct values, (b) bits 7:6 are the operand count,
(c) 0xFF unbound, (d) CALL is two bytes wide. -/
abbrev OpcodeMap.valid (m : OpcodeMap) : Prop :=
  (Op.all.map m.byteOf).Nodup ∧ (∀ o ∈ Op.all, topBits (m.byteOf o) = o.operandCount) ∧
    m.lookup 0xFF = none ∧ widthOf m.call = 2

/-- Why the decoder refuses a byte stream. -/
inductive DecodeError where
  /-- The first byte is not bound by the opcode map: UnknownOpcode (30_encoding.md R67). -/
  | unboundOpcode (opcode : Byte)
  /-- The stream ends before the instruction does; the three-byte fetch window never does (30_encoding.md R64). -/
  | truncated
deriving DecidableEq, Repr

/-- Format F0: no operand byte (30_encoding.md R61). -/
def takeF0 (i : Instr) (bs : List Byte) : Option (Instr × List Byte) := some (i, bs)

/-- Format F1: operand A follows the opcode (30_encoding.md R61). -/
def takeF1 (f : Byte → Instr) : List Byte → Option (Instr × List Byte)
  | a :: rest => some (f a, rest)
  | [] => none

/-- Format F2: operand A, then operand B (30_encoding.md R61). -/
def takeF2 (f : Byte → Byte → Instr) : List Byte → Option (Instr × List Byte)
  | a :: b :: rest => some (f a b, rest)
  | _ => none

/-- The operand bytes of each mnemonic by its format (30_encoding.md R63). -/
def takeOperands : Op → List Byte → Option (Instr × List Byte)
  | .ldi => takeF2 .ldi
  | .prn => takeF1 .prn
  | .add => takeF2 .add
  | .mul => takeF2 .mul
  | .push => takeF1 .push
  | .pop => takeF1 .pop
  | .call => takeF1 .call
  | .ret => takeF0 .ret
  | .jmp => takeF1 .jmp
  | .jeq => takeF1 .jeq
  | .jne => takeF1 .jne
  | .cmp => takeF2 .cmp
  | .hlt => takeF0 .hlt

/-- Reads one instruction off a byte stream and gives the bytes after it: total, refusing by name. -/
def decode (m : OpcodeMap) : List Byte → Except DecodeError (Instr × List Byte)
  | [] => .error .truncated
  | opcode :: rest =>
    match m.lookup opcode with
    | none => .error (.unboundOpcode opcode)
    | some o =>
      match takeOperands o rest with
      | none => .error .truncated
      | some r => .ok r

/-- The mnemonic of an instruction. -/
def Instr.op : Instr → Op
  | .ldi _ _ => .ldi
  | .prn _ => .prn
  | .add _ _ => .add
  | .mul _ _ => .mul
  | .push _ => .push
  | .pop _ => .pop
  | .call _ => .call
  | .ret => .ret
  | .jmp _ => .jmp
  | .jeq _ => .jeq
  | .jne _ => .jne
  | .cmp _ _ => .cmp
  | .hlt => .hlt

/-- The operand bytes of an instruction, A before B (30_encoding.md R61, R63). -/
def Instr.operandBytes : Instr → List Byte
  | .ldi a imm => [a, imm]
  | .prn a => [a]
  | .add a b => [a, b]
  | .mul a b => [a, b]
  | .push a => [a]
  | .pop a => [a]
  | .call a => [a]
  | .ret => []
  | .jmp a => [a]
  | .jeq a => [a]
  | .jne a => [a]
  | .cmp a b => [a, b]
  | .hlt => []

/-- The bytes of an instruction: the opcode, then its operand bytes (30_encoding.md R61). -/
def encode (m : OpcodeMap) (i : Instr) : List Byte := m.byteOf i.op :: i.operandBytes

/-- The three bytes of a fetch window that holds the low `nbits` bits of `w`, the first byte least significant. -/
def tableBytes (nbits w : Nat) : List Byte :=
  [BitVec.ofNat 8 (w % 2 ^ nbits), BitVec.ofNat 8 (w % 2 ^ nbits / 256), BitVec.ofNat 8 (w % 2 ^ nbits / 65536)]

/-- The instruction that the decoder reads, under the default opcode map, from the bits `w` as spec/opcode_table.json numbers
them; the bits above `nbits` are zero. -/
def decodeTableWord (nbits w : Nat) : Option Instr :=
  match decode defaultOpcodeMap (tableBytes nbits w) with
  | .ok (i, _) => some i
  | .error _ => none

end Sys2Proof
end

