-- ==== Sys2Proof/Machine/State.lean ====
section
/-! DEFINITION. The state of CA-CORE as plain data (10_state.md; R32 says the list is complete), the reasons a step can stop,
and the state after reset (R33). -/

namespace Sys2Proof.Machine

/-- Memory: the listed cells, addresses strictly rising, no entry equal to what an unlisted address reads as. The canonical
form is `Memory.wf` of Sys2Proof/Machine/Ops.lean (20_memory.md R40). -/
abbrev Memory := List Host.Cell

/-- The run-state (10_state.md R28). -/
inductive RunState where
  | idle
  | run
  | halted
  | faulted
deriving DecidableEq, Repr

/-- The ALU's operation tags (46_compare.md R150); `other` stands for any tag the ALU does not know. DESIGN CHOICE: the tags
have no encoding in the spec, so an unknown one is told apart by a number (log entry 19). -/
inductive AluTag where
  | add
  | mul
  | cmp
  | other (tag : Nat)
deriving DecidableEq, Repr

/-- The six error kinds with the info each records (60_exceptions.md R170). -/
inductive ErrorKind where
  /-- Dispatch: the opcode byte is not bound (R171). -/
  | unknownOpcode (opcode : Byte)
  /-- The fetch, PUSH, POP, CALL, RET and the host's load: the address outside 0..255 (R172). -/
  | memoryOutOfBounds (addr : Int)
  /-- The ALU on an unknown tag; no program reaches it (R173). -/
  | unsupportedAluOperation (tag : AluTag)
  /-- The host's image parser, before any cycle (R174). -/
  | malformedProgramLine (line : Nat)
  /-- `chkreg` on an operand byte of 8 or more (R175). -/
  | illegalRegister (operand : Byte)
  /-- ADD and MUL under the policy `fault` (R176). -/
  | arithmeticOverflow (result : Nat)
deriving DecidableEq, Repr

/-- The fault record (10_state.md R29): the error kind, which carries its info and has its cause code, and the PC of the
faulting cycle. -/
structure FaultRecord where
  kind : ErrorKind
  pc : Pc
deriving DecidableEq, Repr

/-- The complete state (10_state.md R32), and with it the parameters that the model takes as an argument (00_scope.md R7;
log entry 3). -/
structure State where
  /-- R0 to R7; R6 holds the flags and R7 the stack pointer by convention (R20, R22, R23). -/
  regs : Vector Byte 8
  /-- The program counter, 0..256 (R25). -/
  pc : Pc
  /-- The instruction register, written by each fetch (R26; log entries 1 and 2). -/
  ir : Byte
  /-- Operand latch A (R27; log entries 1 and 2). -/
  opa : Byte
  /-- Operand latch B (R27; log entries 1 and 2). -/
  opb : Byte
  /-- The 256 memory cells (20_memory.md R40). -/
  mem : Memory
  /-- The run-state (R28). -/
  runState : RunState
  /-- The fault record, none until a fault (R29). -/
  faultRecord : Option FaultRecord
  /-- The output stream, oldest first (R30). -/
  output : List Byte
  /-- The named parameters: configuration that no step and no host action changes (R31). -/
  config : Config
deriving DecidableEq, Repr

/-- Why `step` gives no next state: the core takes no step outside RUN (40_cycle.md R81). Every fatal error of the spec is NOT
one of these: it is a next state in FAULTED (60_exceptions.md R178; log entries 8 and 9). -/
inductive Fault where
  /-- `step` in IDLE: the host has not issued `run` (10_state.md R28). Safe: the hardware takes no step either. -/
  | notStarted
  /-- `step` in HALTED, which is final (10_state.md R28, 60_exceptions.md R185). Safe: the hardware takes no step either. -/
  | halted
  /-- `step` in FAULTED, which is final (60_exceptions.md R177). Safe: the hardware takes no step either. -/
  | faulted
deriving DecidableEq, Repr

/-- Why an instruction has no meaning. No instruction of CA-CORE is refused. -/
inductive Refusal where
  /-- An arm of `exec` that has no meaning yet: there is none left. Safe: the run stops. -/
  | notModelled (mnemonic : String)
deriving DecidableEq, Repr

/-- What every step, cycle and meaning answers. -/
abbrev Answer := Host.Outcome State Fault Refusal

/-- The state after reset (10_state.md R33, 70_reset_and_hazards.md R200). IR, OPA and OPB have no reset value in the spec:
DESIGN CHOICE 0 (log entry 1). -/
def State.reset : State where
  regs := (Vector.replicate 8 0).set 7 spReset
  pc := 0
  ir := 0
  opa := 0
  opb := 0
  mem := []
  runState := .idle
  faultRecord := none
  output := []
  config := defaultConfig

end Sys2Proof.Machine
end

