-- ==== Sys2Proof/Machine/Flags.lean ====
section
/-! DEFINITION. The flags (10_state.md R24, 46_compare.md R152, 45_jumps.md R141, R142). -/

namespace Sys2Proof.Machine

/-- `EQUAL` (00_scope.md R7). -/
def flagEqual : Byte := 1

/-- `GREATER` (00_scope.md R7). -/
def flagGreater : Byte := 2

/-- `LESS` (00_scope.md R7). -/
def flagLess : Byte := 4

/-- The flags comparator, unsigned, exactly one of the three codes (46_compare.md R152). -/
def flagcmp (l r : Byte) : Byte :=
  if l = r then flagEqual else if r.toNat < l.toNat then flagGreater else flagLess

/-- JEQ is taken exactly when the flags register is EQUAL (45_jumps.md R141; 92_eei_decisions.md D19). -/
def equalHolds (flags : Byte) : Bool := flags == flagEqual

/-- JNE is taken exactly when the flags register is GREATER or LESS (45_jumps.md R142; 92_eei_decisions.md D19). -/
def notEqualHolds (flags : Byte) : Bool := flags == flagGreater || flags == flagLess

end Sys2Proof.Machine
end

