-- ==== Sys2Proof/Machine/Operands.lean ====
section
/-! DEFINITION. The two operand forms (30_encoding.md R63). -/

namespace Sys2Proof.Machine

/-- `chkreg(n)` (00_scope.md R10, 60_exceptions.md R175): the register that an operand byte names, or IllegalRegister. -/
def chkreg (n : Byte) : Except ErrorKind Reg :=
  if h : n.toNat < 8 then .ok ⟨n.toNat, h⟩ else .error (.illegalRegister n)

/-- An immediate operand: `zext_8`, the byte itself (00_scope.md R10, 30_encoding.md R63). -/
def immediate (b : Byte) : Byte := b

end Sys2Proof.Machine
end

