-- ==== Sys2Proof/Machine/Ops.lean ====
section
/-! DEFINITION. The shared operations: registers, memory, the stack pointer, taking a fault, and the fetch and advance of the
cycle (00_scope.md R10, 20_memory.md, 40_cycle.md, 60_exceptions.md). -/

namespace Sys2Proof.Machine

/-- What a memory address that is not listed reads as: the reset contents (10_state.md R33). -/
def unlistedByte : Byte := 0

/-- The canonical form: addresses strictly rising and inside 0..255, no entry that an unlisted address reads as. -/
abbrev Memory.wf (m : Memory) : Prop :=
  m.Pairwise (fun c d => c.1 < d.1) ∧ ∀ c ∈ m, c.1 ≤ 255 ∧ c.2 ≠ unlistedByte

/-- The byte a memory holds at an address. -/
def Memory.read : Memory → Nat → Byte
  | [], _ => unlistedByte
  | (k, v) :: rest, a => if k = a then v else Memory.read rest a

/-- A listed cell in front of a list, unless its byte is what an unlisted address reads as. -/
def consCell (a : Nat) (v : Byte) (m : Memory) : Memory := if v = unlistedByte then m else (a, v) :: m

/-- The memory with one byte written, in canonical form. -/
def Memory.write : Memory → Nat → Byte → Memory
  | [], a, v => consCell a v []
  | (k, w) :: rest, a, v =>
    if a < k then consCell a v ((k, w) :: rest)
    else if a = k then consCell a v rest
    else (k, w) :: Memory.write rest a v

/-- `x[r]`: the value of register r (00_scope.md R10). -/
def State.reg (s : State) (r : Reg) : Byte := s.regs[r]

/-- `x[r] <- v` (00_scope.md R10). -/
def State.setReg (s : State) (r : Reg) (v : Byte) : State := { s with regs := s.regs.set r v }

/-- `pc <- target` (00_scope.md R10). -/
def State.setPc (s : State) (target : Pc) : State := { s with pc := target }

/-- The fetch's write of IR, OPA and OPB (10_state.md R26, R27). -/
def State.latch (s : State) (ir opa opb : Byte) : State := { s with ir := ir, opa := opa, opb := opb }

/-- The memory replaced by another. -/
def State.setMem (s : State) (m : Memory) : State := { s with mem := m }

/-- The run-state replaced by another (10_state.md R28). -/
def State.setRunState (s : State) (rs : RunState) : State := { s with runState := rs }

/-- `Output(v)`: one more element of the output stream (00_scope.md R10, 10_state.md R30). -/
def State.emit (s : State) (v : Byte) : State := { s with output := s.output ++ [v] }

/-- Fault entry (60_exceptions.md R178) on the state from before the handler's writes: the run-state becomes FAULTED and the
fault record takes the kind and the cycle's PC; registers, memory, PC and output are kept. -/
def takeFault (s : State) (e : ErrorKind) : State :=
  { s with runState := .faulted, faultRecord := some { kind := e, pc := s.pc } }

/-- The cause code of an error kind (60_exceptions.md R170). -/
def ErrorKind.code : ErrorKind → Nat
  | .unknownOpcode _ => 1
  | .memoryOutOfBounds _ => 2
  | .unsupportedAluOperation _ => 3
  | .malformedProgramLine _ => 4
  | .illegalRegister _ => 5
  | .arithmeticOverflow _ => 6

/-- `MemRead(addr, 1)` (20_memory.md R41). -/
def readMem (s : State) (addr : Int) : Except ErrorKind Byte :=
  if 0 ≤ addr ∧ addr ≤ 255 then .ok (s.mem.read addr.toNat) else .error (.memoryOutOfBounds addr)

/-- `MemWrite(addr, 1, v)` (20_memory.md R42). -/
def writeMem (s : State) (addr : Int) (v : Byte) : Except ErrorKind State :=
  if 0 ≤ addr ∧ addr ≤ 255 then .ok (s.setMem (s.mem.write addr.toNat v)) else .error (.memoryOutOfBounds addr)

/-- The address that the stack pointer holds. -/
def State.spAddr (s : State) : Int := ((s.reg spReg).toNat : Int)

/-- The stack pointer decremented as an integer; below 0 it raises MemoryOutOfBounds (43_stack.md R120, R121). -/
def decSp (s : State) : Except ErrorKind State :=
  if s.spAddr - 1 < 0 then .error (.memoryOutOfBounds (s.spAddr - 1))
  else .ok (s.setReg spReg (BitVec.ofInt 8 (s.spAddr - 1)))

/-- The stack pointer incremented as an integer; above 255 it raises MemoryOutOfBounds (43_stack.md R120, R122). -/
def incSp (s : State) : Except ErrorKind State :=
  if s.spAddr + 1 > 255 then .error (.memoryOutOfBounds (s.spAddr + 1))
  else .ok (s.setReg spReg (BitVec.ofInt 8 (s.spAddr + 1)))

/-- An 8-bit value as a PC target, 0..255 (45_jumps.md R143). -/
def pcTarget (v : Byte) : Pc := v.setWidth 9

/-- A handler's outcome: Continue, Jumped, Halted (40_cycle.md R84). -/
inductive CycleOutcome where
  | continued
  | jumped
  | halted
deriving DecidableEq, Repr

/-- What a handler gives: the fault it raises first, or the state it leaves and its outcome (40_cycle.md R84). -/
abbrev Handled := Except ErrorKind (State × CycleOutcome)

/-- ADVANCING (40_cycle.md R85): PC + 1 + IR[7:6], not reduced modulo 256. -/
def advance (s : State) : State := s.setPc (s.pc + BitVec.ofNat 9 (widthOf s.ir))

/-- The end of a cycle (40_cycle.md R88): the advance of R85, the jump of R84, the halt of R86, or the fault entry of
60_exceptions.md R178 on the state `s` that the handler was given. -/
def complete (s : State) : Handled → Answer
  | .error e => .next (takeFault s e)
  | .ok (t, .continued) => .next (advance t)
  | .ok (t, .jumped) => .next t
  | .ok (t, .halted) => .next (t.setRunState .halted)

/-- FETCHING (40_cycle.md R82): the three reads in order, the first failing one reported. -/
def fetch (s : State) : Except ErrorKind State := do
  let ir ← readMem s (s.pc.toNat : Int)
  let opa ← readMem s ((s.pc.toNat : Int) + 1)
  let opb ← readMem s ((s.pc.toNat : Int) + 2)
  .ok (s.latch ir opa opb)

/-- FETCHING and DISPATCHING (40_cycle.md R82, R83): the latched state and the instruction to run, or the state whose fault entry
is taken and the error. -/
def beginCycle (s : State) : Except (State × ErrorKind) (State × Instr) :=
  match fetch s with
  | .error e => .error (s, e)
  | .ok u =>
    match decode u.config.opcodes [u.ir, u.opa, u.opb] with
    | .error _ => .error (u, .unknownOpcode u.ir)
    | .ok (i, _) => .ok (u, i)

/-- The memory with a list of bytes placed at rising addresses, those inside 0..255. -/
def placeBytes (m : Memory) : Nat → List Byte → Memory
  | _, [] => m
  | a, b :: bs => placeBytes (if a ≤ 255 then m.write a b else m) (a + 1) bs

end Sys2Proof.Machine
end

