-- ==== Sys2Proof/Machine/Alu.lean ====
section
/-! DEFINITION. The ALU (46_compare.md R150): "given an operation tag and two register indices, performs the arithmetic or sets
flags". -/

namespace Sys2Proof.Machine

/-- The exact integer result narrowed into register a (42_arithmetic.md R110, R111): ArithmeticOverflow under the policy `fault`
when it exceeds 255, else the result mod 256. -/
def narrowInto (s : State) (a : Reg) (result : Nat) : Except ErrorKind State :=
  if s.config.overflow = .fault ∧ result > 255 then .error (.arithmeticOverflow result)
  else .ok (s.setReg a (BitVec.ofNat 8 result))

/-- `ALU(tag, a, b)` (46_compare.md R150). -/
def alu (tag : AluTag) (a b : Reg) (s : State) : Except ErrorKind State :=
  match tag with
  | .add => narrowInto s a ((s.reg a).toNat + (s.reg b).toNat)
  | .mul => narrowInto s a ((s.reg a).toNat * (s.reg b).toNat)
  | .cmp => .ok (s.setReg flagsReg (flagcmp (s.reg a) (s.reg b)))
  | .other t => .error (.unsupportedAluOperation (.other t))

/-- A two-register instruction: operand A checked before operand B (60_exceptions.md R179), then the ALU. -/
def aluHandler (tag : AluTag) (a b : Byte) (s : State) : Handled := do
  let ra ← chkreg a
  let rb ← chkreg b
  let t ← alu tag ra rb s
  .ok (t, .continued)

end Sys2Proof.Machine
end

