-- ==== Sys2Proof/Machine/Arithmetic.lean ====
section
/-! DEFINITION. Arithmetic: ADD, MUL (42_arithmetic.md). -/

namespace Sys2Proof.Machine

/-- ADD (42_arithmetic.md R110). -/
def execAdd (a b : Byte) (s : State) : Answer := complete s (aluHandler .add a b s)

/-- MUL (42_arithmetic.md R111). -/
def execMul (a b : Byte) (s : State) : Answer := complete s (aluHandler .mul a b s)

end Sys2Proof.Machine
end

