-- ==== Sys2Proof/Machine/Compare.lean ====
section
/-! DEFINITION. Compare: CMP (46_compare.md). -/

namespace Sys2Proof.Machine

/-- CMP (46_compare.md R151). -/
def execCmp (a b : Byte) (s : State) : Answer := complete s (aluHandler .cmp a b s)

end Sys2Proof.Machine
end

