-- ==== Sys2Proof/Machine/Halt.lean ====
section
/-! DEFINITION. Halt: HLT (47_halt.md). -/

namespace Sys2Proof.Machine

/-- HLT (47_halt.md R160): the handler's outcome is Halted, so PC is kept and the run-state becomes HALTED (40_cycle.md R86). -/
def execHlt (s : State) : Answer := complete s (.ok (s, .halted))

end Sys2Proof.Machine
end

