-- ==== Sys2Proof/Machine/Jumps.lean ====
section
/-! DEFINITION. Jumps: JMP, JEQ, JNE (45_jumps.md). -/

namespace Sys2Proof.Machine

/-- A jump to x[a] when `taken` holds of the flags register, else Continue (40_cycle.md R89); the operand is checked whether or
not the jump is taken (45_jumps.md R141, R142). -/
def jumpWhen (taken : Bool) (a : Byte) (s : State) : Handled := do
  let r ← chkreg a
  if taken then .ok (s.setPc (pcTarget (s.reg r)), .jumped) else .ok (s, .continued)

/-- JMP (45_jumps.md R140). -/
def execJmp (a : Byte) (s : State) : Answer := complete s (jumpWhen true a s)

/-- JEQ (45_jumps.md R141). -/
def execJeq (a : Byte) (s : State) : Answer := complete s (jumpWhen (equalHolds (s.reg flagsReg)) a s)

/-- JNE (45_jumps.md R142). -/
def execJne (a : Byte) (s : State) : Answer := complete s (jumpWhen (notEqualHolds (s.reg flagsReg)) a s)

end Sys2Proof.Machine
end

