-- ==== Sys2Proof/Machine/LoadPrint.lean ====
section
/-! DEFINITION. Load immediate and print: LDI, PRN (41_load_print.md). -/

namespace Sys2Proof.Machine

/-- LDI (41_load_print.md R100). -/
def execLdi (a imm : Byte) (s : State) : Answer :=
  complete s do
    let r ← chkreg a
    .ok (s.setReg r (immediate imm), .continued)

/-- PRN (41_load_print.md R101). -/
def execPrn (a : Byte) (s : State) : Answer :=
  complete s do
    let r ← chkreg a
    .ok (s.emit (s.reg r), .continued)

end Sys2Proof.Machine
end

