-- ==== Sys2Proof/Machine/Stack.lean ====
section
/-! DEFINITION. The stack: PUSH, POP (43_stack.md). -/

namespace Sys2Proof.Machine

/-- The popped byte into register r, then the stack pointer just written incremented (43_stack.md R122; the order is the source
text's, 92_eei_decisions.md D9). -/
def popInto (s : State) (r : Reg) : Except ErrorKind (State × Byte) := do
  let v ← readMem s s.spAddr
  let t ← incSp (s.setReg r v)
  .ok (t, v)

/-- PUSH (43_stack.md R121): x[a] is read after the decrement. -/
def execPush (a : Byte) (s : State) : Answer :=
  complete s do
    let r ← chkreg a
    let t ← decSp s
    let u ← writeMem t t.spAddr (t.reg r)
    .ok (u, .continued)

/-- POP (43_stack.md R122). -/
def execPop (a : Byte) (s : State) : Answer :=
  complete s do
    let r ← chkreg a
    let p ← popInto s r
    .ok (p.1, .continued)

end Sys2Proof.Machine
end

