-- ==== Sys2Proof/Machine/Subroutine.lean ====
section
/-! DEFINITION. Subroutine call and return: CALL, RET (44_subroutine.md). -/

namespace Sys2Proof.Machine

/-- The return address that CALL pushes: its own address + 2 (40_cycle.md R87, 44_subroutine.md R130). -/
def returnAddress (s : State) : Byte := BitVec.ofNat 8 (s.pc.toNat + 2)

/-- CALL (44_subroutine.md R130): x[a] is read after the decrement. -/
def execCall (a : Byte) (s : State) : Answer :=
  complete s do
    let r ← chkreg a
    let t ← decSp s
    let u ← writeMem t t.spAddr (returnAddress s)
    .ok (u.setPc (pcTarget (u.reg r)), .jumped)

/-- RET with `RET_SCRATCH` = `OperandA`: the byte after RET names the register (44_subroutine.md R131). -/
def retOperandA (s : State) : Handled := do
  let r ← chkreg s.opa
  let p ← popInto s r
  .ok (p.1.setPc (pcTarget p.2), .jumped)

/-- RET with `RET_SCRATCH` = `Internal`: no general register is written (44_subroutine.md R131). -/
def retInternal (s : State) : Handled := do
  let v ← readMem s s.spAddr
  let t ← incSp s
  .ok (t.setPc (pcTarget v), .jumped)

/-- RET (44_subroutine.md R131): PC takes the popped value (90_conflicts.md C4). -/
def execRet (s : State) : Answer :=
  complete s (match s.config.retScratch with
    | .operandA => retOperandA s
    | .internal => retInternal s)

end Sys2Proof.Machine
end

