-- ==== Sys2Proof/Machine/Step.lean ====
section
/-! DEFINITION. One execute_cycle (40_cycle.md R88), and the placing of one instruction for the host. -/

namespace Sys2Proof.Machine

/-- One execute_cycle (40_cycle.md R80, R88) in RUN; outside RUN the core takes no step (R81). -/
def step (s : State) : Host.Outcome State Fault Refusal :=
  match s.runState with
  | .idle => .fault .notStarted
  | .halted => .fault .halted
  | .faulted => .fault .faulted
  | .run =>
    match beginCycle s with
    | .error (u, e) => .next (takeFault u e)
    | .ok (u, i) => exec i u

/-- The host's load of one instruction at PC and its `run` (70_reset_and_hazards.md R202): the three bytes of the word placed in
the fetch window, the opcode map that the table's words are written in, and the run-state RUN (log entries 7 and 24). -/
def State.withFetchWord (s : State) (nbits w : Nat) : State :=
  { s with
    mem := placeBytes s.mem s.pc.toNat (tableBytes nbits w)
    config := { s.config with opcodes := defaultOpcodeMap }
    runState := .run }

end Sys2Proof.Machine
end

