-- ==== Sys2Proof/Machine/Image.lean ====
section
/-! DEFINITION. The program image format (30_encoding.md R72) as the host's parser reads it (60_exceptions.md R174), over a list
of characters. What the spec leaves to the parser (93_implementation_defined.md I16) is log entry 17. -/

namespace Sys2Proof.Machine

/-- White space inside a line. DESIGN CHOICE: space, tab and carriage return (log entry 17). -/
def isBlank (c : Char) : Bool := c == ' ' || c == '\t' || c == '\r'

/-- The text cut at its line ends. -/
def splitLines : List Char → List (List Char)
  | [] => [[]]
  | c :: cs =>
    if c = '\n' then [] :: splitLines cs
    else
      match splitLines cs with
      | [] => [[c]]
      | l :: ls => (c :: l) :: ls

/-- What a line holds before a comment introduced by `#`, without the white space around it. -/
def lineToken (line : List Char) : List Char :=
  (((line.takeWhile (fun c => c != '#')).dropWhile isBlank).reverse.dropWhile isBlank).reverse

/-- The value of a string of binary digits, most significant first, on top of `acc`. -/
def binaryValue (acc : Nat) : List Char → Option Nat
  | [] => some acc
  | c :: cs => if c = '0' then binaryValue (2 * acc) cs else if c = '1' then binaryValue (2 * acc + 1) cs else none

/-- The byte of a token that is exactly 8 binary digits (30_encoding.md R72). -/
def tokenByte (token : List Char) : Option Byte :=
  if token.length = 8 then (binaryValue 0 token).map (BitVec.ofNat 8) else none

/-- The bytes of a list of lines, the first of them numbered `n`: blank and comment-only lines are skipped, and the first token
that is not a valid 8-digit binary literal is MalformedProgramLine with its line number. -/
def parseLines (n : Nat) : List (List Char) → Except ErrorKind (List Byte)
  | [] => .ok []
  | line :: rest =>
    if lineToken line = [] then parseLines (n + 1) rest
    else
      match tokenByte (lineToken line) with
      | none => .error (.malformedProgramLine n)
      | some b =>
        match parseLines (n + 1) rest with
        | .error e => .error e
        | .ok bs => .ok (b :: bs)

/-- The bytes of a program image (30_encoding.md R72). DESIGN CHOICE: lines are numbered from 1 (log entry 17). -/
def parseImage (text : List Char) : Except ErrorKind (List Byte) := parseLines 1 (splitLines text)

/-- A byte as the image format writes it: 8 binary digits, most significant first (30_encoding.md R72). -/
def byteDigits (b : Byte) : List Char :=
  [7, 6, 5, 4, 3, 2, 1, 0].map fun k => if b.getLsbD k then '1' else '0'

end Sys2Proof.Machine
end

