-- ==== Sys2Proof/Machine/HostPort.lean ====
section
/-! DEFINITION. The six interfaces of the block to its host (10_state.md R34; 70_reset_and_hazards.md R202, R210), and the boot of
a program. -/

namespace Sys2Proof.Machine

/-- Why the core refuses a host action; the core's state is then as before (log entry 16). -/
inductive HostError where
  /-- `load` or `run` outside IDLE (10_state.md R34, 70_reset_and_hazards.md R202 (4)). -/
  | notIdle (rs : RunState)
  /-- `load` at an address outside 0..255, or a bad image line (60_exceptions.md R172 (d), R174). -/
  | rejected (e : ErrorKind)
deriving DecidableEq, Repr

/-- `reset`: every piece of state at its reset value, in any run-state (10_state.md R34, 70_reset_and_hazards.md R200). The
configuration is not state and stays (10_state.md R31). -/
def hostReset (s : State) : State := { State.reset with config := s.config }

/-- `load(addr, byte)` (10_state.md R34): in IDLE only, MemoryOutOfBounds outside 0..255. -/
def hostLoad (s : State) (addr : Int) (b : Byte) : Except HostError State :=
  if s.runState = .idle then
    match writeMem s addr b with
    | .ok t => .ok t
    | .error e => .error (.rejected e)
  else .error (.notIdle s.runState)

/-- The bytes of an image loaded at rising addresses (70_reset_and_hazards.md R202 (2)). -/
def hostLoadFrom (s : State) : Nat → List Byte → Except HostError State
  | _, [] => .ok s
  | addr, b :: bs =>
    match hostLoad s (addr : Int) b with
    | .error e => .error e
    | .ok t => hostLoadFrom t (addr + 1) bs

/-- `run`: IDLE becomes RUN (10_state.md R34). -/
def hostRun (s : State) : Except HostError State :=
  if s.runState = .idle then .ok (s.setRunState .run) else .error (.notIdle s.runState)

/-- `step`: one execute_cycle (10_state.md R34). -/
def hostStep (s : State) : Answer := step s

/-- `out`: the values emitted so far, in order (10_state.md R30, R34). -/
def hostOut (s : State) : List Byte := s.output

/-- `status`: the run-state and the fault record (10_state.md R34). -/
def hostStatus (s : State) : RunState × Option FaultRecord := (s.runState, s.faultRecord)

/-- A trace request has no effect on any state (60_exceptions.md R184). -/
def hostTrace (s : State) : State := s

/-- Boot (70_reset_and_hazards.md R202): reset, load the image from address 0, run. -/
def boot (s : State) (image : List Byte) : Except HostError State :=
  match hostLoadFrom (hostReset s) 0 image with
  | .error e => .error e
  | .ok t => hostRun t

/-- Boot from the image's text (30_encoding.md R72): on a malformed line the core stays in IDLE and `run` is never issued
(60_exceptions.md R174). DESIGN CHOICE, unsafe (log entry 30): the whole text is parsed before the reset and before any load, so a
text with more than 256 bytes and a malformed line after them is MalformedProgramLine and not MemoryOutOfBounds(256); the spec
does not say which. -/
def bootText (s : State) (text : List Char) : Except HostError State :=
  match parseImage text with
  | .error e => .error (.rejected e)
  | .ok image => boot s image

/-- `run` repeats cycles until HALTED or FAULTED (40_cycle.md R81), at most `fuel` of them: a run may be infinite (R90). -/
def runCycles : Nat → State → State
  | 0, s => s
  | fuel + 1, s =>
    match step s with
    | .next t => runCycles fuel t
    | .fault _ => s
    | .refused _ => s

end Sys2Proof.Machine
end

