-- ==== Sys2Proof/Safety.lean ====
section
/-! DEFINITION. What counts as a good state, and the terms in which the statements speak: the invariant of a run, the frame of
an instruction, and the state after a fetch. -/

namespace Sys2Proof.Machine

/-- The kinds a cycle can raise, each with the info that 60_exceptions.md R170 and R172 to R176 give it: an unbound opcode byte; an
address -1 or 256; an operand byte 8..255; a result above 255 under the policy `fault`, where the largest product is 65025
(42_arithmetic.md R111). UnsupportedAluOperation is unreachable (46_compare.md R153) and MalformedProgramLine is the host's (R174). -/
def ErrorKind.raisedInCore (c : Config) : ErrorKind → Prop
  | .unknownOpcode b => c.opcodes.lookup b = none
  | .memoryOutOfBounds addr => addr = -1 ∨ addr = 256
  | .unsupportedAluOperation _ => False
  | .malformedProgramLine _ => False
  | .illegalRegister n => 8 ≤ n.toNat
  | .arithmeticOverflow result => c.overflow = .fault ∧ 256 ≤ result ∧ result ≤ 65025

/-- The invariant of a run: memory in canonical form; PC in 0..256 (10_state.md R25); an opcode map that meets 30_encoding.md R66;
a fault record exactly in FAULTED (10_state.md R29), of a kind that the core raises and with the kept PC (60_exceptions.md R178);
a halt only where HLT can be fetched (47_halt.md R160). -/
structure State.Inv (s : State) : Prop where
  mem_wf : s.mem.wf
  pc_le : s.pc.toNat ≤ 256
  opcodes_valid : s.config.opcodes.valid
  record_iff : s.faultRecord.isSome ↔ s.runState = .faulted
  record_legal : ∀ f, s.faultRecord = some f → f.kind.raisedInCore s.config ∧ f.pc = s.pc
  halted_pc : s.runState = .halted → s.pc.toNat ≤ 253

/-- The state after a successful fetch: the fetch window at PC in IR, OPA and OPB (40_cycle.md R82). -/
def State.fetched (s : State) : State :=
  s.latch (s.mem.read s.pc.toNat) (s.mem.read (s.pc.toNat + 1)) (s.mem.read (s.pc.toNat + 2))

/-- A state whose registers, memory and PC are `s`'s and whose latches hold another fetch window. -/
def State.refetched (s : State) (window : Byte × Byte × Byte) : State := s.latch window.1 window.2.1 window.2.2

/-- Every register is unchanged but those listed. -/
def KeepsRegsExcept (written : List Reg) (s t : State) : Prop := ∀ q, q ∉ written → t.reg q = s.reg q

/-- Reading any address gives what it gave before. -/
def KeepsMemory (s t : State) : Prop := ∀ addr, readMem t addr = readMem s addr

/-- Reading any address but one gives what it gave before. -/
def KeepsMemoryExcept (stored : Int) (s t : State) : Prop := ∀ addr, addr ≠ stored → readMem t addr = readMem s addr

/-- The state that no handler writes is unchanged: IR and the operand latches, the run-state, the fault record and the
configuration. -/
structure KeepsRest (s t : State) : Prop where
  ir : t.ir = s.ir
  opa : t.opa = s.opa
  opb : t.opb = s.opb
  runState : t.runState = s.runState
  faultRecord : t.faultRecord = s.faultRecord
  config : t.config = s.config

/-- PC advanced by 1 + IR[7:6] without wrapping (40_cycle.md R85), for a PC that a handler can have (10_state.md R25). -/
def Advances (s t : State) : Prop := s.pc.toNat ≤ 253 → t.pc.toNat = s.pc.toNat + 1 + topBits s.ir

/-- The registers an instruction may write: its destination, and the stack pointer or the flags register that its rule also
writes (30_encoding.md R63; 43_stack.md R120; 46_compare.md R151; 44_subroutine.md R131). -/
def mayWrite (s : State) (q : Reg) : Instr → Prop
  | .ldi a _ => a.toNat = q.val
  | .prn _ => False
  | .add a _ => a.toNat = q.val
  | .mul a _ => a.toNat = q.val
  | .push _ => q = spReg
  | .pop a => a.toNat = q.val ∨ q = spReg
  | .call _ => q = spReg
  | .ret => q = spReg ∨ (s.config.retScratch = .operandA ∧ s.opa.toNat = q.val)
  | .jmp _ => False
  | .jeq _ => False
  | .jne _ => False
  | .cmp _ _ => q = flagsReg
  | .hlt => False

/-- The instruction set PC itself: JMP, CALL, RET, and JEQ or JNE when taken (40_cycle.md R89). -/
def jumps (s : State) : Instr → Prop
  | .jmp _ => True
  | .call _ => True
  | .ret => True
  | .jeq _ => equalHolds (s.reg flagsReg) = true
  | .jne _ => notEqualHolds (s.reg flagsReg) = true
  | .ldi _ _ => False
  | .prn _ => False
  | .add _ _ => False
  | .mul _ _ => False
  | .push _ => False
  | .pop _ => False
  | .cmp _ _ => False
  | .hlt => False

/-- One line of a program image: a byte or nothing, then a comment or nothing (30_encoding.md R72). -/
structure ImageLine where
  byte : Option Byte
  comment : Option (List Char)
deriving DecidableEq, Repr

/-- The comment stays on its line. -/
def ImageLine.oneLine (l : ImageLine) : Prop := ∀ c, l.comment = some c → '\n' ∉ c

/-- The line's text and its line end. -/
def ImageLine.text (l : ImageLine) : List Char :=
  (match l.byte with
    | some b => byteDigits b ++ [' ']
    | none => []) ++
  (match l.comment with
    | some c => '#' :: c
    | none => []) ++ ['\n']

/-- The text of a list of lines. -/
def imageText (ls : List ImageLine) : List Char := ls.flatMap ImageLine.text

end Sys2Proof.Machine
end

