-- ==== Sys2Proof/Certificates/Slice0/Obligations.lean ====
section
/-! DEFINITION. The statements about CA-CORE for the provers. Each docstring names the rule of spec/ it formalises. A register
operand that names register r is written `a.toNat = r.val`; an operand byte of 8 or more is the subject of
`Obligations.IllegalRegisterOperandFaults`. Statements that read memory after a write assume `Memory.wf`, the canonical form,
which `Obligations.InvariantKeptByEveryStep` shows every step keeps. -/

open Sys2Proof Sys2Proof.Machine

/-! ## Encoding -/

/-- Every instruction, with every operand byte, is read back from its own encoding under every opcode map that meets
30_encoding.md R66, whatever bytes follow it (R60, R61, R63). -/
def Obligations.DecodeOfEncodeIsTheInstruction : Prop :=
  ∀ (m : OpcodeMap) (i : Instr) (rest : List Byte), m.valid → decode m (encode m i ++ rest) = .ok (i, rest)

/-- Each byte stream has at most one reading: what decodes to i is i's encoding followed by the rest, under every opcode map,
so that no operand byte is dropped or read twice (30_encoding.md R61, R68). -/
def Obligations.DecodedBytesAreTheEncoding : Prop :=
  ∀ (m : OpcodeMap) (bs rest : List Byte) (i : Instr), decode m bs = .ok (i, rest) → encode m i ++ rest = bs

/-- 30_encoding.md R60: an instruction is 1, 2 or 3 bytes long, its width is 1 + opcode[7:6], the advance recomputes it from IR, and no bound
opcode has bits 7:6 = 11. -/
def Obligations.WidthIsOnePlusTopBits : Prop :=
  ∀ (m : OpcodeMap) (i : Instr), m.valid →
    (encode m i).length = 1 + topBits (m.byteOf i.op) ∧
      ((encode m i).length = 1 ∨ (encode m i).length = 2 ∨ (encode m i).length = 3) ∧
      (∀ b : Byte, topBits b = 3 → m.lookup b = none) ∧ ∀ s : State, Advances s (advance s)

/-- The words of spec/opcode_table.json under the default map of 30_encoding.md R65, written out in binary, decode to the
instructions they stand for: a sanity statement. The byte values are PRESUMED (92_eei_decisions.md D1; log entry 4). -/
def Obligations.TableWordsDecode : Prop :=
  decodeTableWord 24 0b00001000_00000011_10000010 = some (.ldi 3 8) ∧
    decodeTableWord 16 0b00000010_01000111 = some (.prn 2) ∧
    decodeTableWord 24 0b00000001_00000111_10100000 = some (.add 7 1) ∧
    decodeTableWord 24 0b00000110_00000101_10100010 = some (.mul 5 6) ∧
    decodeTableWord 16 0b00000010_01000101 = some (.push 2) ∧
    decodeTableWord 16 0b00000110_01000110 = some (.pop 6) ∧
    decodeTableWord 16 0b00000001_01010000 = some (.call 1) ∧
    decodeTableWord 8 0b00010001 = some .ret ∧
    decodeTableWord 16 0b00000011_01010100 = some (.jmp 3) ∧
    decodeTableWord 16 0b00000010_01010101 = some (.jeq 2) ∧
    decodeTableWord 16 0b00000011_01010110 = some (.jne 3) ∧
    decodeTableWord 24 0b00000010_00000100_10100111 = some (.cmp 4 2) ∧
    decodeTableWord 8 0b00000001 = some .hlt

/-- 30_encoding.md R67: an opcode byte that is not one of the map's thirteen values is refused by name, whatever follows it; under
the default map these are 243 values, 0x00 and all of 0xC0 to 0xFF among them; under every valid map no byte with bits 7:6 = 11
is bound. The default map is PRESUMED (log entry 4). -/
def Obligations.UnboundOpcodeBytesAreRefused : Prop :=
  (∀ (m : OpcodeMap) (b : Byte) (rest : List Byte), (∀ o, m.byteOf o ≠ b) → decode m (b :: rest) = .error (.unboundOpcode b)) ∧
    (∀ (m : OpcodeMap) (b : Byte) (rest : List Byte), m.valid → 0xC0 ≤ b.toNat → decode m (b :: rest) = .error (.unboundOpcode b)) ∧
    ((List.range 256).filter fun k => (defaultOpcodeMap.lookup (BitVec.ofNat 8 k)).isNone).length = 243 ∧
    defaultOpcodeMap.lookup 0x00 = none

/-! ## The cycle -/

/-- 40_cycle.md R88: in RUN, when the bytes of the fetch window at PC decode to an instruction i (any operand bytes), the step is
exec of i on the fetched state: IR, OPA and OPB latched, everything else as before. -/
def Obligations.StepRunsTheDecodedInstruction : Prop :=
  ∀ (s : State) (i : Instr) (rest : List Byte), s.runState = .run → s.pc.toNat ≤ 253 →
    decode s.config.opcodes
      [s.mem.read s.pc.toNat, s.mem.read (s.pc.toNat + 1), s.mem.read (s.pc.toNat + 2)] = .ok (i, rest) →
    step s = exec i s.fetched

/-- 40_cycle.md R81: a cycle can run only in RUN, where the core always answers a next state; in IDLE, HALTED and FAULTED it takes
no step. -/
def Obligations.StepsExactlyInRun : Prop :=
  ∀ s : State,
    ((∃ t, step s = .next t) ↔ s.runState = .run) ∧
      (s.runState = .idle → step s = .fault .notStarted) ∧
      (s.runState = .halted → step s = .fault .halted) ∧
      (s.runState = .faulted → step s = .fault .faulted)

/-- 40_cycle.md R82: the fetch reads the three bytes at PC, PC+1, PC+2 in order into IR, OPA and OPB whatever the opcode; a cycle
with PC at 254, 255 or 256 faults with the first failing address, 256, and no wrap-around. -/
def Obligations.FetchReadsTheWindowOrFaults : Prop :=
  (∀ s : State, s.pc.toNat ≤ 253 → ∃ t, fetch s = .ok t ∧
    readMem s (s.pc.toNat : Int) = .ok t.ir ∧ readMem s ((s.pc.toNat : Int) + 1) = .ok t.opa ∧
    readMem s ((s.pc.toNat : Int) + 2) = .ok t.opb ∧ t = s.latch t.ir t.opa t.opb) ∧
  (∀ s : State, 254 ≤ s.pc.toNat → s.pc.toNat ≤ 256 →
    fetch s = .error (.memoryOutOfBounds 256) ∧
      (s.runState = .run → step s = .next (takeFault s (.memoryOutOfBounds 256))))

/-- 40_cycle.md R83, 60_exceptions.md R171: a fetched byte that the map does not bind raises UnknownOpcode with that byte, after the
window has been read; whole byte, no bit of it checked apart. -/
def Obligations.UnboundOpcodeFaultsAtDispatch : Prop :=
  ∀ s : State, s.runState = .run → s.pc.toNat ≤ 253 → (∀ o, s.config.opcodes.byteOf o ≠ s.mem.read s.pc.toNat) →
    step s = .next (takeFault s.fetched (.unknownOpcode (s.mem.read s.pc.toNat)))

/-- PC over a whole cycle that does not fault (40_cycle.md R85, R86, R89): an instruction that does not jump advances PC by 1 + IR[7:6]
of the byte fetched at the old PC, with no reduction; HLT keeps PC; a jump sets an 8-bit target. -/
def Obligations.PcAfterACycle : Prop :=
  ∀ (s t : State) (i : Instr) (rest : List Byte), s.runState = .run → s.pc.toNat ≤ 253 →
    decode s.config.opcodes
      [s.mem.read s.pc.toNat, s.mem.read (s.pc.toNat + 1), s.mem.read (s.pc.toNat + 2)] = .ok (i, rest) →
    step s = .next t → t.runState ≠ .faulted →
    (i = .hlt → t.pc = s.pc) ∧ (jumps s i → t.pc.toNat ≤ 255) ∧
      (i ≠ .hlt → ¬jumps s i → t.pc.toNat = s.pc.toNat + 1 + topBits (s.mem.read s.pc.toNat))

/-- 45_jumps.md R143: a control transfer (JMP, taken JEQ or JNE, CALL, RET) sets PC to a value 0..255 that is not checked when it is set;
a target of 254 or 255 faults with MemoryOutOfBounds(256) at the next fetch. -/
def Obligations.JumpTargetsAreCheckedAtTheNextFetch : Prop :=
  ∀ (s t : State) (i : Instr), s.runState = .run → exec i s = .next t → t.runState = .run → jumps s i →
    t.pc.toNat ≤ 255 ∧ (254 ≤ t.pc.toNat → step t = .next (takeFault t (.memoryOutOfBounds 256)))

/-- The run of 40_cycle.md R81 and R90: cycles repeat until the first state in HALTED or FAULTED, which is final; every earlier state
is in RUN. -/
def Obligations.RunStopsAtTheFirstFinalState : Prop :=
  ∀ (s : State) (n : Nat),
    ((runCycles n s).runState ≠ .run → ∀ k, runCycles (n + k) s = runCycles n s) ∧
      ((runCycles n s).runState = .run →
        step (runCycles n s) = .next (runCycles (n + 1) s) ∧ ∀ k, k ≤ n → (runCycles k s).runState = .run)

/-! ## Load immediate and print -/

/-- LDI (41_load_print.md R100): the register equals the immediate exactly; nothing else changes but PC. -/
def Obligations.LdiLoadsTheImmediate : Prop :=
  ∀ (s : State) (a imm : Byte) (r : Reg), a.toNat = r.val →
    ∃ t, exec (.ldi a imm) s = .next t ∧ t.reg r = imm ∧ KeepsRegsExcept [r] s t ∧ KeepsMemory s t ∧
      t.output = s.output ∧ Advances s t ∧ KeepsRest s t

/-- PRN (41_load_print.md R101): one more element, the register's value, at the end of the output stream; no register, flag or memory
byte changes. -/
def Obligations.PrnEmitsTheRegister : Prop :=
  ∀ (s : State) (a : Byte) (r : Reg), a.toNat = r.val →
    ∃ t, exec (.prn a) s = .next t ∧ t.output = s.output ++ [s.reg r] ∧ KeepsRegsExcept [] s t ∧ KeepsMemory s t ∧
      Advances s t ∧ KeepsRest s t

/-! ## Arithmetic -/

/-- ADD (42_arithmetic.md R110): (x + y) mod 256 in the first register, the same register twice included, under the policy `wrap` or
when the sum fits; nothing else changes but PC. -/
def Obligations.AddIsTheSumModulo256 : Prop :=
  ∀ (s : State) (a b : Byte) (p q : Reg), a.toNat = p.val → b.toNat = q.val →
    (s.config.overflow = .wrap ∨ (s.reg p).toNat + (s.reg q).toNat ≤ 255) →
    ∃ t, exec (.add a b) s = .next t ∧ (t.reg p).toNat = ((s.reg p).toNat + (s.reg q).toNat) % 256 ∧
      KeepsRegsExcept [p] s t ∧ KeepsMemory s t ∧ t.output = s.output ∧ Advances s t ∧ KeepsRest s t

/-- MUL (42_arithmetic.md R111): (x * y) mod 256 in the first register, the same register twice included, under the policy `wrap` or
when the product fits; nothing else changes but PC. -/
def Obligations.MulIsTheProductModulo256 : Prop :=
  ∀ (s : State) (a b : Byte) (p q : Reg), a.toNat = p.val → b.toNat = q.val →
    (s.config.overflow = .wrap ∨ (s.reg p).toNat * (s.reg q).toNat ≤ 255) →
    ∃ t, exec (.mul a b) s = .next t ∧ (t.reg p).toNat = ((s.reg p).toNat * (s.reg q).toNat) % 256 ∧
      KeepsRegsExcept [p] s t ∧ KeepsMemory s t ∧ t.output = s.output ∧ Advances s t ∧ KeepsRest s t

/-- 60_exceptions.md R176: ArithmeticOverflow exists only under the policy `fault`, where ADD or MUL raises it, with the integer
result, exactly when the result exceeds 255; under `wrap` it is never raised, by any instruction. -/
def Obligations.ArithmeticOverflowOnlyUnderFaultPolicy : Prop :=
  (∀ (s : State) (a b : Byte) (p q : Reg), a.toNat = p.val → b.toNat = q.val → s.config.overflow = .fault →
    (255 < (s.reg p).toNat + (s.reg q).toNat →
      exec (.add a b) s = .next (takeFault s (.arithmeticOverflow ((s.reg p).toNat + (s.reg q).toNat)))) ∧
    (255 < (s.reg p).toNat * (s.reg q).toNat →
      exec (.mul a b) s = .next (takeFault s (.arithmeticOverflow ((s.reg p).toNat * (s.reg q).toNat)))) ∧
    ((s.reg p).toNat + (s.reg q).toNat ≤ 255 → ∃ t, exec (.add a b) s = .next t ∧ t.runState = s.runState) ∧
    ((s.reg p).toNat * (s.reg q).toNat ≤ 255 → ∃ t, exec (.mul a b) s = .next t ∧ t.runState = s.runState)) ∧
  (∀ (s t : State) (k : Nat) (pc : Pc), s.config.overflow = .wrap → step s = .next t →
    t.faultRecord = some { kind := .arithmeticOverflow k, pc := pc } → s.faultRecord = t.faultRecord)

/-! ## Compare -/

/-- 46_compare.md R152: the comparator gives exactly 1, 2 or 4, by the unsigned order. -/
def Obligations.FlagComparatorGivesOneOfThreeCodes : Prop :=
  ∀ l r : Byte,
    (l = r → flagcmp l r = 1) ∧ (r.toNat < l.toNat → flagcmp l r = 2) ∧ (l.toNat < r.toNat → flagcmp l r = 4) ∧
      (flagcmp l r = 1 ∨ flagcmp l r = 2 ∨ flagcmp l r = 4)

/-- CMP (46_compare.md R151): R6 replaced whole by 1, 2 or 4 from the two registers' old values, R6 itself as an operand included; no other
register changes. -/
def Obligations.CmpSetsTheFlags : Prop :=
  ∀ (s : State) (a b : Byte) (p q : Reg), a.toNat = p.val → b.toNat = q.val →
    ∃ t, exec (.cmp a b) s = .next t ∧
      (s.reg p = s.reg q → t.reg flagsReg = 1) ∧
      ((s.reg q).toNat < (s.reg p).toNat → t.reg flagsReg = 2) ∧
      ((s.reg p).toNat < (s.reg q).toNat → t.reg flagsReg = 4) ∧
      KeepsRegsExcept [flagsReg] s t ∧ KeepsMemory s t ∧ t.output = s.output ∧ Advances s t ∧ KeepsRest s t

/-- 45_jumps.md R144: after CMP x,y, and as long as nothing writes R6, JEQ is taken iff the compared registers were equal and JNE iff they
were not; not taken means PC advances. -/
def Obligations.CompareThenConditionalJump : Prop :=
  ∀ (s t u : State) (a b c : Byte) (p q r : Reg), a.toNat = p.val → b.toNat = q.val → c.toNat = r.val →
    exec (.cmp a b) s = .next t → u.reg flagsReg = t.reg flagsReg →
    (s.reg p = s.reg q →
      exec (.jeq c) u = .next (u.setPc (pcTarget (u.reg r))) ∧ exec (.jne c) u = .next (advance u)) ∧
    (s.reg p ≠ s.reg q →
      exec (.jeq c) u = .next (advance u) ∧ exec (.jne c) u = .next (u.setPc (pcTarget (u.reg r))))

/-! ## Stack -/

/-- PUSH (43_stack.md R121): R7 decremented, and the register's value, read after the decrement, at the new R7; every other register and
every other byte of memory unchanged. -/
def Obligations.PushStoresBelowTheStackPointer : Prop :=
  ∀ (s : State) (a : Byte) (r : Reg), a.toNat = r.val → s.mem.wf → 1 ≤ (s.reg spReg).toNat →
    ∃ t, exec (.push a) s = .next t ∧ t.spAddr = s.spAddr - 1 ∧
      (r ≠ spReg → readMem t (s.spAddr - 1) = .ok (s.reg r)) ∧
      (r = spReg → readMem t (s.spAddr - 1) = .ok (t.reg spReg)) ∧
      KeepsRegsExcept [spReg] s t ∧ KeepsMemoryExcept (s.spAddr - 1) s t ∧ t.output = s.output ∧ Advances s t ∧ KeepsRest s t

/-- POP (43_stack.md R122): the byte at R7 into the register, then R7 incremented; into R7 itself, R7 ends at the popped byte plus 1.
Nothing is stored. -/
def Obligations.PopLoadsAtTheStackPointer : Prop :=
  ∀ (s : State) (a v : Byte) (r : Reg), a.toNat = r.val → readMem s s.spAddr = .ok v →
    (r ≠ spReg → (s.reg spReg).toNat ≤ 254 →
      ∃ t, exec (.pop a) s = .next t ∧ t.reg r = v ∧ t.spAddr = s.spAddr + 1 ∧ KeepsRegsExcept [r, spReg] s t ∧
        KeepsMemory s t ∧ t.output = s.output ∧ Advances s t ∧ KeepsRest s t) ∧
    (r = spReg → v.toNat ≤ 254 →
      ∃ t, exec (.pop a) s = .next t ∧ t.spAddr = (v.toNat : Int) + 1 ∧ KeepsRegsExcept [spReg] s t ∧
        KeepsMemory s t ∧ t.output = s.output ∧ Advances s t ∧ KeepsRest s t)

/-- 60_exceptions.md R172 (b), (c): PUSH and CALL with R7 = 0 raise MemoryOutOfBounds(-1); POP and RET whose new stack pointer would
be 256 raise MemoryOutOfBounds(256); the registers and memory are those of before the cycle. -/
def Obligations.StackBoundsFault : Prop :=
  (∀ (s : State) (a : Byte), a.toNat < 8 → (s.reg spReg).toNat = 0 →
    exec (.push a) s = .next (takeFault s (.memoryOutOfBounds (-1))) ∧
      exec (.call a) s = .next (takeFault s (.memoryOutOfBounds (-1)))) ∧
  (∀ (s : State) (a : Byte) (r : Reg), a.toNat = r.val →
    (r ≠ spReg → (s.reg spReg).toNat = 255 → exec (.pop a) s = .next (takeFault s (.memoryOutOfBounds 256))) ∧
    (r = spReg → readMem s s.spAddr = .ok 255 → exec (.pop a) s = .next (takeFault s (.memoryOutOfBounds 256)))) ∧
  (∀ s : State, s.config.retScratch = .internal → (s.reg spReg).toNat = 255 →
    exec .ret s = .next (takeFault s (.memoryOutOfBounds 256))) ∧
  (∀ (s : State) (r : Reg), s.config.retScratch = .operandA → s.opa.toNat = r.val →
    (r ≠ spReg → (s.reg spReg).toNat = 255 → exec .ret s = .next (takeFault s (.memoryOutOfBounds 256))) ∧
    (r = spReg → readMem s s.spAddr = .ok 255 → exec .ret s = .next (takeFault s (.memoryOutOfBounds 256))))

/-- 43_stack.md R123: PUSH Ra then POP Rb (each with the fetch window it is run with) moves x[a] to x[b], restores R7 and leaves x[a] at the
old R7 - 1, for a and b other than R7 and each other and R7 at least 1. The law fails in the corner cases: with a = R7 the value
moved is the old R7 - 1, with b = R7 the stack pointer ends at x[a] + 1, and with R7 = 0 the PUSH faults. -/
def Obligations.PushThenPopRoundTrip : Prop :=
  ∀ (s : State) (a b : Byte) (p q : Reg) (w : Byte × Byte × Byte), a.toNat = p.val → b.toNat = q.val → s.mem.wf →
    (1 ≤ (s.reg spReg).toNat → ∃ u, exec (.push a) s = .next u ∧
      (p ≠ spReg → q ≠ p → q ≠ spReg → ∃ t, exec (.pop b) (u.refetched w) = .next t ∧ t.reg q = s.reg p ∧
        t.reg spReg = s.reg spReg ∧ readMem t (s.spAddr - 1) = .ok (s.reg p)) ∧
      (p = spReg → q ≠ spReg → ∃ t, exec (.pop b) (u.refetched w) = .next t ∧
        (t.reg q).toNat = (s.reg spReg).toNat - 1 ∧ t.reg spReg = s.reg spReg) ∧
      (p ≠ spReg → q = spReg → (s.reg p).toNat ≤ 254 → ∃ t, exec (.pop b) (u.refetched w) = .next t ∧
        (t.reg spReg).toNat = (s.reg p).toNat + 1)) ∧
    ((s.reg spReg).toNat = 0 → exec (.push a) s = .next (takeFault s (.memoryOutOfBounds (-1))))

/-! ## Subroutine call and return -/

/-- CALL (44_subroutine.md R130): R7 decremented, its own address + 2 at the new R7, PC set to x[a] read after the decrement; every other
register and every other byte of memory unchanged. -/
def Obligations.CallPushesTheReturnAddress : Prop :=
  ∀ (s : State) (a : Byte) (r : Reg), a.toNat = r.val → s.mem.wf → s.pc.toNat ≤ 253 → 1 ≤ (s.reg spReg).toNat →
    ∃ t ret, exec (.call a) s = .next t ∧ t.spAddr = s.spAddr - 1 ∧ readMem t (s.spAddr - 1) = .ok ret ∧
      ret.toNat = s.pc.toNat + 2 ∧ (r ≠ spReg → t.pc.toNat = (s.reg r).toNat) ∧
      (r = spReg → (t.pc.toNat : Int) = s.spAddr - 1) ∧ KeepsRegsExcept [spReg] s t ∧
      KeepsMemoryExcept (s.spAddr - 1) s t ∧ t.output = s.output ∧ KeepsRest s t

/-- RET (44_subroutine.md R131): under `OperandA` the return address goes to the register that OPA names, under `Internal` to none; R7 is
incremented; PC is the popped value. Nothing is stored. -/
def Obligations.RetPopsTheReturnAddress : Prop :=
  ∀ (s : State) (v : Byte), readMem s s.spAddr = .ok v →
    (s.config.retScratch = .operandA → ∀ r : Reg, s.opa.toNat = r.val →
      (r ≠ spReg → (s.reg spReg).toNat ≤ 254 → ∃ t, exec .ret s = .next t ∧ t.reg r = v ∧ t.spAddr = s.spAddr + 1 ∧
        t.pc.toNat = v.toNat ∧ KeepsRegsExcept [r, spReg] s t ∧ KeepsMemory s t ∧ t.output = s.output ∧ KeepsRest s t) ∧
      (r = spReg → v.toNat ≤ 254 → ∃ t, exec .ret s = .next t ∧ t.spAddr = (v.toNat : Int) + 1 ∧
        t.pc.toNat = v.toNat ∧ KeepsRegsExcept [spReg] s t ∧ KeepsMemory s t ∧ t.output = s.output ∧ KeepsRest s t)) ∧
    (s.config.retScratch = .internal → (s.reg spReg).toNat ≤ 254 → ∃ t, exec .ret s = .next t ∧ t.spAddr = s.spAddr + 1 ∧
      t.pc.toNat = v.toNat ∧ KeepsRegsExcept [spReg] s t ∧ KeepsMemory s t ∧ t.output = s.output ∧ KeepsRest s t)

/-- 44_subroutine.md R132: CALL then RET returns PC to the call's address + 2, for both `RET_SCRATCH` values and every scratch register,
when the subroutine leaves R7 and memory[R7] as CALL left them, R7 was at least 1, the byte after the RET names a register under
`OperandA`, and the CALL is at 253 or below, 252 or below when the scratch register is R7. -/
def Obligations.CallThenRetReturns : Prop :=
  ∀ (s u v : State) (a : Byte), a.toNat < 8 → s.mem.wf → s.pc.toNat ≤ 253 → 1 ≤ (s.reg spReg).toNat →
    exec (.call a) s = .next u → v.reg spReg = u.reg spReg → readMem v v.spAddr = readMem u u.spAddr →
    (v.config.retScratch = .operandA → v.opa.toNat < 8 ∧ (v.opa.toNat = spReg.val → s.pc.toNat ≤ 252)) →
    ∃ t, exec .ret v = .next t ∧ t.pc.toNat = s.pc.toNat + 2

/-! ## Jumps -/

/-- JMP (45_jumps.md R140): PC takes the register's value; no register, memory byte or output changes. -/
def Obligations.JmpSetsThePc : Prop :=
  ∀ (s : State) (a : Byte) (r : Reg), a.toNat = r.val →
    ∃ t, exec (.jmp a) s = .next t ∧ t.pc.toNat = (s.reg r).toNat ∧ KeepsRegsExcept [] s t ∧ KeepsMemory s t ∧
      t.output = s.output ∧ KeepsRest s t

/-- JEQ (45_jumps.md R141): taken exactly when R6 is 1, the reset value 0 and every combined value included among those not taken;
otherwise PC advances. Nothing else changes. -/
def Obligations.JeqJumpsExactlyOnEqual : Prop :=
  ∀ (s : State) (a : Byte) (r : Reg), a.toNat = r.val →
    ∃ t, exec (.jeq a) s = .next t ∧ (s.reg flagsReg = 1 → t.pc.toNat = (s.reg r).toNat) ∧
      (s.reg flagsReg ≠ 1 → Advances s t) ∧ KeepsRegsExcept [] s t ∧ KeepsMemory s t ∧ t.output = s.output ∧ KeepsRest s t

/-- JNE (45_jumps.md R142): taken exactly when R6 is 2 or 4; otherwise, R6 = 0 included, PC advances. Nothing else changes. -/
def Obligations.JneJumpsExactlyOnGreaterOrLess : Prop :=
  ∀ (s : State) (a : Byte) (r : Reg), a.toNat = r.val →
    ∃ t, exec (.jne a) s = .next t ∧ (s.reg flagsReg = 2 ∨ s.reg flagsReg = 4 → t.pc.toNat = (s.reg r).toNat) ∧
      (s.reg flagsReg ≠ 2 → s.reg flagsReg ≠ 4 → Advances s t) ∧ KeepsRegsExcept [] s t ∧ KeepsMemory s t ∧
      t.output = s.output ∧ KeepsRest s t

/-! ## Halt -/

/-- 40_cycle.md R86 with the frame of 47_halt.md R160: HLT makes the run-state HALTED, keeps PC at its own address, and changes nothing else;
and no other instruction halts. -/
def Obligations.HaltOnlyByHltKeepingPc : Prop :=
  (∀ s : State, ∃ t, exec .hlt s = .next t ∧ t.runState = .halted ∧ t.pc = s.pc ∧ KeepsRegsExcept [] s t ∧ KeepsMemory s t ∧
    t.output = s.output ∧ t.ir = s.ir ∧ t.opa = s.opa ∧ t.opb = s.opb ∧ t.faultRecord = s.faultRecord ∧ t.config = s.config) ∧
  (∀ (s t : State) (i : Instr), s.runState = .run → exec i s = .next t → t.runState = .halted → i = .hlt)

/-! ## Fatal errors -/

/-- 60_exceptions.md R175: `chkreg` raises IllegalRegister(n) for every register operand byte n of 8 or more, in every instruction that names a
register, in a conditional jump whether or not it would be taken, and in RET under `OperandA`; the fault entry is taken on the state
the handler was given. -/
def Obligations.IllegalRegisterOperandFaults : Prop :=
  ∀ (s : State) (n x : Byte), 8 ≤ n.toNat →
    exec (.ldi n x) s = .next (takeFault s (.illegalRegister n)) ∧
    exec (.prn n) s = .next (takeFault s (.illegalRegister n)) ∧
    exec (.add n x) s = .next (takeFault s (.illegalRegister n)) ∧
    (x.toNat < 8 → exec (.add x n) s = .next (takeFault s (.illegalRegister n))) ∧
    exec (.mul n x) s = .next (takeFault s (.illegalRegister n)) ∧
    (x.toNat < 8 → exec (.mul x n) s = .next (takeFault s (.illegalRegister n))) ∧
    exec (.push n) s = .next (takeFault s (.illegalRegister n)) ∧
    exec (.pop n) s = .next (takeFault s (.illegalRegister n)) ∧
    exec (.call n) s = .next (takeFault s (.illegalRegister n)) ∧
    (s.opa = n → s.config.retScratch = .operandA → exec .ret s = .next (takeFault s (.illegalRegister n))) ∧
    exec (.jmp n) s = .next (takeFault s (.illegalRegister n)) ∧
    exec (.jeq n) s = .next (takeFault s (.illegalRegister n)) ∧
    exec (.jne n) s = .next (takeFault s (.illegalRegister n)) ∧
    exec (.cmp n x) s = .next (takeFault s (.illegalRegister n)) ∧
    (x.toNat < 8 → exec (.cmp x n) s = .next (takeFault s (.illegalRegister n)))

/-- 60_exceptions.md R178: fault entry is precise. A step that ends in FAULTED keeps every register, every byte of memory, PC and the output of
before the cycle, and records the PC and a kind with its code and info of R170. (93_implementation_defined.md I13 bars carrying the
kept registers and memory over to the reference software; this is the rule about CA-CORE.) -/
def Obligations.FaultEntryIsPrecise : Prop :=
  ∀ s t : State, step s = .next t → t.runState = .faulted → s.pc.toNat ≤ 256 →
    KeepsRegsExcept [] s t ∧ KeepsMemory s t ∧ t.mem = s.mem ∧ t.pc = s.pc ∧ t.output = s.output ∧ t.config = s.config ∧
      ∃ e, t.faultRecord = some { kind := e, pc := s.pc } ∧ e.raisedInCore s.config ∧
        (e.code = 1 ∨ e.code = 2 ∨ e.code = 5 ∨ e.code = 6)

/-- 46_compare.md R153: UnsupportedAluOperation is what the ALU raises on an unknown tag (R150), and no step records it; nor does any step record
MalformedProgramLine, which is the host's (60_exceptions.md R174). -/
def Obligations.UnsupportedAluOperationIsUnreachable : Prop :=
  (∀ (k : Nat) (a b : Reg) (s : State), alu (.other k) a b s = .error (.unsupportedAluOperation (.other k))) ∧
  (∀ (s t : State) (f : FaultRecord), step s = .next t → t.faultRecord = some f → s.faultRecord ≠ some f →
    f.kind.code ≠ 3 ∧ f.kind.code ≠ 4)

/-- 60_exceptions.md R179: one fault per cycle, the first of: the fetch reads (whatever the byte at PC is), UnknownOpcode, `chkreg` of A before
`chkreg` of B, the stack-bound check, ArithmeticOverflow. -/
def Obligations.FirstFaultInOrderIsReported : Prop :=
  (∀ s : State, s.runState = .run → 254 ≤ s.pc.toNat → s.pc.toNat ≤ 256 →
    step s = .next (takeFault s (.memoryOutOfBounds 256))) ∧
  (∀ s : State, s.runState = .run → s.pc.toNat ≤ 253 → (∀ o, s.config.opcodes.byteOf o ≠ s.mem.read s.pc.toNat) →
    step s = .next (takeFault s.fetched (.unknownOpcode (s.mem.read s.pc.toNat)))) ∧
  (∀ (s : State) (a b : Byte), 8 ≤ a.toNat → 8 ≤ b.toNat →
    exec (.add a b) s = .next (takeFault s (.illegalRegister a)) ∧
    exec (.mul a b) s = .next (takeFault s (.illegalRegister a)) ∧
    exec (.cmp a b) s = .next (takeFault s (.illegalRegister a))) ∧
  (∀ (s : State) (a : Byte), 8 ≤ a.toNat → (s.reg spReg).toNat = 0 →
    exec (.push a) s = .next (takeFault s (.illegalRegister a)) ∧
    exec (.call a) s = .next (takeFault s (.illegalRegister a))) ∧
  (∀ (s : State) (a : Byte), 8 ≤ a.toNat → (s.reg spReg).toNat = 255 →
    exec (.pop a) s = .next (takeFault s (.illegalRegister a)) ∧
    (s.opa = a → s.config.retScratch = .operandA → exec .ret s = .next (takeFault s (.illegalRegister a)))) ∧
  (∀ (s : State) (a b : Byte), s.config.overflow = .fault → a.toNat < 8 → 8 ≤ b.toNat →
    exec (.add a b) s = .next (takeFault s (.illegalRegister b)) ∧
    exec (.mul a b) s = .next (takeFault s (.illegalRegister b)))

/-! ## Whole-machine rules -/

/-- The invariant holds at reset. -/
def Obligations.InvariantAtReset : Prop := State.reset.Inv

/-- The invariant is kept by every step from every state that meets it: canonical memory, PC in 0..256, a legal opcode map, a fault record
exactly in FAULTED, of a kind and info the core raises, with the kept PC, and HALTED only where HLT can be fetched. -/
def Obligations.InvariantKeptByEveryStep : Prop := ∀ s t : State, s.Inv → step s = .next t → t.Inv

/-- No instruction writes a register but its destination, and R7 or R6 where its rule says so (30_encoding.md R63; 10_state.md R24 for
the flags). -/
def Obligations.OnlyNamedRegistersChange : Prop :=
  ∀ (i : Instr) (s t : State) (q : Reg), exec i s = .next t → ¬mayWrite s q i → t.reg q = s.reg q

/-- 20_memory.md R43's list of stores: only PUSH and CALL write memory, one byte, at the decremented stack pointer. -/
def Obligations.OnlyPushAndCallStore : Prop :=
  ∀ (i : Instr) (s t : State), s.mem.wf → exec i s = .next t →
    ((∀ a, i ≠ .push a ∧ i ≠ .call a) → t.mem = s.mem ∧ KeepsMemory s t) ∧ KeepsMemoryExcept (s.spAddr - 1) s t

/-- 10_state.md R30: the output stream is empty at reset; a step appends to it only where it runs a PRN, and elements emitted before a
fault stay; and every PRN of a register that a step runs appends one element, the register's value, at the end. -/
def Obligations.OnlyPrnAppendsToTheOutput : Prop :=
  State.reset.output = [] ∧
  (∀ s t : State, step s = .next t →
    (t.output = s.output ∨
      ∃ (a : Byte) (r : Reg) (rest : List Byte), a.toNat = r.val ∧ t.output = s.output ++ [s.reg r] ∧
        decode s.config.opcodes
          [s.mem.read s.pc.toNat, s.mem.read (s.pc.toNat + 1), s.mem.read (s.pc.toNat + 2)] = .ok (.prn a, rest)) ∧
    (t.runState = .faulted → t.output = s.output)) ∧
  ∀ (s : State) (a : Byte) (r : Reg) (rest : List Byte), s.runState = .run → s.pc.toNat ≤ 253 → a.toNat = r.val →
    decode s.config.opcodes
      [s.mem.read s.pc.toNat, s.mem.read (s.pc.toNat + 1), s.mem.read (s.pc.toNat + 2)] = .ok (.prn a, rest) →
    ∃ t, step s = .next t ∧ t.output = s.output ++ [s.reg r]

/-- 10_state.md R26, R27: what IR, OPA and OPB hold between cycles cannot be observed. Two states in which only they differ step to states
in which only they differ, whatever they hold. (So the model's own reset values of the three, log entries 1 and 2, show nowhere else.) -/
def Obligations.LatchesBetweenCyclesAreUnobservable : Prop :=
  ∀ (s t : State) (w : Byte × Byte × Byte), step s = .next t →
    ∃ u, step (s.refetched w) = .next u ∧ u.regs = t.regs ∧ u.pc = t.pc ∧ u.mem = t.mem ∧ u.runState = t.runState ∧
      u.faultRecord = t.faultRecord ∧ u.output = t.output ∧ u.config = t.config ∧ (s.pc.toNat ≤ 253 → u = t)

/-- 30_encoding.md R63's unused operand bytes (92_eei_decisions.md D20): the latches of bytes that an instruction does not use are ignored
and never checked. OPB reaches no handler but through the instruction's own operand, and OPA none but RET. -/
def Obligations.UnusedOperandBytesAreIgnored : Prop :=
  ∀ (i : Instr) (s t : State) (opa opb : Byte), exec i s = .next t → (i = .ret → opa = s.opa) →
    exec i (s.latch s.ir opa opb) = .next (t.latch t.ir opa opb)

/-- No instruction, step or host action changes the configuration. Of the dispatch table 10_state.md R31 says so. That it holds of the
parameters OVERFLOW_POLICY and RET_SCRATCH too, which stand beside the table in `config` (00_scope.md R7), is the model's reading
(log entry 3), and that the host's reset keeps all three is log entry 22. -/
def Obligations.ConfigurationIsImmutable : Prop :=
  (∀ (i : Instr) (s t : State), exec i s = .next t → t.config = s.config) ∧
  (∀ s t : State, step s = .next t → t.config = s.config) ∧
  (∀ (s t : State) (addr : Int) (b : Byte), hostLoad s addr b = .ok t → t.config = s.config) ∧
  (∀ s t : State, hostRun s = .ok t → t.config = s.config) ∧ (∀ s : State, (hostReset s).config = s.config)

/-! ## Memory -/

/-- 20_memory.md R41, R42: a write inside 0..255 is read back at its address and leaves every other address alone, and the canonical form is
kept; an access outside raises MemoryOutOfBounds with its address and writes nothing. -/
def Obligations.MemoryReadsBackWhatWasWritten : Prop :=
  ∀ (s : State) (addr : Int) (v : Byte),
    (0 ≤ addr → addr ≤ 255 → s.mem.wf → ∃ t, writeMem s addr v = .ok t ∧ t.mem.wf ∧ readMem t addr = .ok v ∧
      KeepsMemoryExcept addr s t ∧ KeepsRegsExcept [] s t ∧ t.pc = s.pc ∧ t.output = s.output ∧ KeepsRest s t) ∧
    (addr < 0 ∨ 255 < addr →
      readMem s addr = .error (.memoryOutOfBounds addr) ∧ writeMem s addr v = .error (.memoryOutOfBounds addr))

/-- 20_memory.md R51: the byte that a PUSH stores in one cycle is what the very next cycle fetches, when PC advances to it; and a store
into the PUSH's own operand byte does not change the operand it already holds (the window is read before the handler runs). -/
def Obligations.StoredByteIsFetchedByTheNextCycle : Prop :=
  ∀ (s t : State) (a : Byte) (rest : List Byte) (r : Reg), s.runState = .run → s.mem.wf → s.config.opcodes.valid → s.pc.toNat ≤ 251 →
    decode s.config.opcodes
      [s.mem.read s.pc.toNat, s.mem.read (s.pc.toNat + 1), s.mem.read (s.pc.toNat + 2)] = .ok (.push a, rest) →
    a.toNat = r.val → r ≠ spReg → 1 ≤ (s.reg spReg).toNat → step s = .next t →
    (s.spAddr - 1 = (s.pc.toNat : Int) + 2 → ∃ u, fetch t = .ok u ∧ u.ir = s.reg r) ∧
    (s.spAddr - 1 = (s.pc.toNat : Int) + 1 → readMem t (s.spAddr - 1) = .ok (s.reg r) ∧ t.opa = a)

/-! ## Reset and the host -/

/-- 10_state.md R33, 70_reset_and_hazards.md R200: the reset values that the spec states (those of IR, OPA and OPB are not among them), from
every state. -/
def Obligations.ResetValues : Prop :=
  ∀ s : State,
    (∀ r : Reg, r ≠ spReg → (hostReset s).reg r = 0 ∧ State.reset.reg r = 0) ∧
    (hostReset s).reg spReg = 255 ∧ State.reset.reg spReg = 255 ∧ (hostReset s).pc = 0 ∧ State.reset.pc = 0 ∧
    (∀ addr : Int, 0 ≤ addr → addr ≤ 255 → readMem (hostReset s) addr = .ok 0 ∧ readMem State.reset addr = .ok 0) ∧
    (hostReset s).runState = .idle ∧ State.reset.runState = .idle ∧
    (hostReset s).faultRecord = none ∧ State.reset.faultRecord = none ∧ (hostReset s).output = [] ∧ State.reset.output = []

/-- 70_reset_and_hazards.md R202: boot is reset, then byte i of the image at address i, every byte left unwritten keeping its reset value 0, then
`run`; once in RUN, `load` is refused. An image of more than 256 bytes is MemoryOutOfBounds(256) at `load`, and `run` is not issued
(60_exceptions.md R172 (d), 92_eei_decisions.md D23). The model's own: the refusal's name notIdle (log entry 16), the parameters
kept by the reset (log entry 22), and that a refused image answers the error and no state (log entry 27). -/
def Obligations.BootLoadsTheImageAndRuns : Prop :=
  ∀ (s : State) (image : List Byte),
    (image.length ≤ 256 → ∃ t, boot s image = .ok t ∧
      (∀ k : Nat, k ≤ 255 → readMem t (k : Int) = .ok (image.getD k 0)) ∧
      t.runState = .run ∧ t.pc = 0 ∧ t.reg spReg = 255 ∧ (∀ r : Reg, r ≠ spReg → t.reg r = 0) ∧ t.faultRecord = none ∧
      t.output = [] ∧ t.config = s.config ∧
      ∀ addr b, hostLoad t addr b = .error (.notIdle .run)) ∧
    (256 < image.length → boot s image = .error (.rejected (.memoryOutOfBounds 256)))

/-- 10_state.md R34: `load` is accepted in IDLE only, and there at 0..255 only, with MemoryOutOfBounds elsewhere; `run` takes IDLE to RUN and
is accepted in IDLE only; neither touches registers, PC or output. -/
def Obligations.HostActionsOnlyInIdle : Prop :=
  ∀ (s : State) (addr : Int) (b : Byte),
    (s.runState ≠ .idle → hostLoad s addr b = .error (.notIdle s.runState) ∧ hostRun s = .error (.notIdle s.runState)) ∧
    (s.runState = .idle → (addr < 0 ∨ 255 < addr) → hostLoad s addr b = .error (.rejected (.memoryOutOfBounds addr))) ∧
    (s.runState = .idle → 0 ≤ addr → addr ≤ 255 → s.mem.wf → ∃ t, hostLoad s addr b = .ok t ∧ readMem t addr = .ok b ∧
      KeepsMemoryExcept addr s t ∧ KeepsRegsExcept [] s t ∧ t.pc = s.pc ∧ t.output = s.output ∧ KeepsRest s t) ∧
    (s.runState = .idle → ∃ t, hostRun s = .ok t ∧ t.runState = .run ∧ KeepsMemory s t ∧ KeepsRegsExcept [] s t ∧
      t.pc = s.pc ∧ t.output = s.output ∧ t.faultRecord = s.faultRecord ∧ t.config = s.config)

/-- 30_encoding.md R72: the bytes of an image come back from its text, one 8-digit binary literal a line, each optionally followed by a comment
introduced by `#`, blank and comment-only lines skipped. (The space before the `#` is the model's choice of a rendering; log entry 17.) -/
def Obligations.ImageTextParsesToItsBytes : Prop :=
  ∀ ls : List ImageLine, (∀ l ∈ ls, l.oneLine) → parseImage (imageText ls) = .ok (ls.filterMap ImageLine.byte)

/-- 60_exceptions.md R174: the first token that is not a valid 8-digit binary literal is MalformedProgramLine, reported before any execution
begins: boot from that text issues no `run`. The model's choices: lines are numbered from 1 (log entry 17), and the malformed line is the
error reported although more than 256 bytes stand before it (log entry 30). -/
def Obligations.MalformedLineIsReportedBeforeExecution : Prop :=
  ∀ (s : State) (ls : List ImageLine) (bad rest : List Char), (∀ l ∈ ls, l.oneLine) → '\n' ∉ bad → lineToken bad ≠ [] →
    (∀ b : Byte, lineToken bad ≠ byteDigits b) →
    parseImage (imageText ls ++ bad ++ '\n' :: rest) = .error (.malformedProgramLine (ls.length + 1)) ∧
      bootText s (imageText ls ++ bad ++ '\n' :: rest) = .error (.rejected (.malformedProgramLine (ls.length + 1))) ∧
      (ErrorKind.malformedProgramLine (ls.length + 1)).code = 4
end

