-- ==== Sys2Proof/Laws/State.lean ====
section
/-! SUPPORT. One lemma per field per update of State, so that no later proof unfolds a record update. -/

namespace Sys2Proof.Machine

variable (s : State)

@[simp] theorem setReg_pc (r : Reg) (v : Byte) : (s.setReg r v).pc = s.pc := rfl
@[simp] theorem setReg_ir (r : Reg) (v : Byte) : (s.setReg r v).ir = s.ir := rfl
@[simp] theorem setReg_opa (r : Reg) (v : Byte) : (s.setReg r v).opa = s.opa := rfl
@[simp] theorem setReg_opb (r : Reg) (v : Byte) : (s.setReg r v).opb = s.opb := rfl
@[simp] theorem setReg_mem (r : Reg) (v : Byte) : (s.setReg r v).mem = s.mem := rfl
@[simp] theorem setReg_runState (r : Reg) (v : Byte) : (s.setReg r v).runState = s.runState := rfl
@[simp] theorem setReg_faultRecord (r : Reg) (v : Byte) : (s.setReg r v).faultRecord = s.faultRecord := rfl
@[simp] theorem setReg_output (r : Reg) (v : Byte) : (s.setReg r v).output = s.output := rfl
@[simp] theorem setReg_config (r : Reg) (v : Byte) : (s.setReg r v).config = s.config := rfl
@[simp] theorem setReg_readMem (r : Reg) (v : Byte) (addr : Int) : readMem (s.setReg r v) addr = readMem s addr := rfl

@[simp] theorem setPc_pc (p : Pc) : (s.setPc p).pc = p := rfl
@[simp] theorem setPc_ir (p : Pc) : (s.setPc p).ir = s.ir := rfl
@[simp] theorem setPc_opa (p : Pc) : (s.setPc p).opa = s.opa := rfl
@[simp] theorem setPc_opb (p : Pc) : (s.setPc p).opb = s.opb := rfl
@[simp] theorem setPc_mem (p : Pc) : (s.setPc p).mem = s.mem := rfl
@[simp] theorem setPc_runState (p : Pc) : (s.setPc p).runState = s.runState := rfl
@[simp] theorem setPc_faultRecord (p : Pc) : (s.setPc p).faultRecord = s.faultRecord := rfl
@[simp] theorem setPc_output (p : Pc) : (s.setPc p).output = s.output := rfl
@[simp] theorem setPc_config (p : Pc) : (s.setPc p).config = s.config := rfl
@[simp] theorem setPc_regs (p : Pc) : (s.setPc p).regs = s.regs := rfl
@[simp] theorem setPc_reg (p : Pc) (q : Reg) : (s.setPc p).reg q = s.reg q := rfl
@[simp] theorem setPc_spAddr (p : Pc) : (s.setPc p).spAddr = s.spAddr := rfl
@[simp] theorem setPc_readMem (p : Pc) (addr : Int) : readMem (s.setPc p) addr = readMem s addr := rfl

@[simp] theorem latch_pc (ir opa opb : Byte) : (s.latch ir opa opb).pc = s.pc := rfl
@[simp] theorem latch_ir (ir opa opb : Byte) : (s.latch ir opa opb).ir = ir := rfl
@[simp] theorem latch_opa (ir opa opb : Byte) : (s.latch ir opa opb).opa = opa := rfl
@[simp] theorem latch_opb (ir opa opb : Byte) : (s.latch ir opa opb).opb = opb := rfl
@[simp] theorem latch_mem (ir opa opb : Byte) : (s.latch ir opa opb).mem = s.mem := rfl
@[simp] theorem latch_runState (ir opa opb : Byte) : (s.latch ir opa opb).runState = s.runState := rfl
@[simp] theorem latch_faultRecord (ir opa opb : Byte) : (s.latch ir opa opb).faultRecord = s.faultRecord := rfl
@[simp] theorem latch_output (ir opa opb : Byte) : (s.latch ir opa opb).output = s.output := rfl
@[simp] theorem latch_config (ir opa opb : Byte) : (s.latch ir opa opb).config = s.config := rfl
@[simp] theorem latch_regs (ir opa opb : Byte) : (s.latch ir opa opb).regs = s.regs := rfl
@[simp] theorem latch_reg (ir opa opb : Byte) (q : Reg) : (s.latch ir opa opb).reg q = s.reg q := rfl
@[simp] theorem latch_spAddr (ir opa opb : Byte) : (s.latch ir opa opb).spAddr = s.spAddr := rfl
@[simp] theorem latch_readMem (ir opa opb : Byte) (addr : Int) : readMem (s.latch ir opa opb) addr = readMem s addr := rfl

@[simp] theorem setMem_pc (m : Memory) : (s.setMem m).pc = s.pc := rfl
@[simp] theorem setMem_ir (m : Memory) : (s.setMem m).ir = s.ir := rfl
@[simp] theorem setMem_opa (m : Memory) : (s.setMem m).opa = s.opa := rfl
@[simp] theorem setMem_opb (m : Memory) : (s.setMem m).opb = s.opb := rfl
@[simp] theorem setMem_mem (m : Memory) : (s.setMem m).mem = m := rfl
@[simp] theorem setMem_runState (m : Memory) : (s.setMem m).runState = s.runState := rfl
@[simp] theorem setMem_faultRecord (m : Memory) : (s.setMem m).faultRecord = s.faultRecord := rfl
@[simp] theorem setMem_output (m : Memory) : (s.setMem m).output = s.output := rfl
@[simp] theorem setMem_config (m : Memory) : (s.setMem m).config = s.config := rfl
@[simp] theorem setMem_regs (m : Memory) : (s.setMem m).regs = s.regs := rfl
@[simp] theorem setMem_reg (m : Memory) (q : Reg) : (s.setMem m).reg q = s.reg q := rfl
@[simp] theorem setMem_spAddr (m : Memory) : (s.setMem m).spAddr = s.spAddr := rfl

@[simp] theorem setRunState_pc (rs : RunState) : (s.setRunState rs).pc = s.pc := rfl
@[simp] theorem setRunState_ir (rs : RunState) : (s.setRunState rs).ir = s.ir := rfl
@[simp] theorem setRunState_opa (rs : RunState) : (s.setRunState rs).opa = s.opa := rfl
@[simp] theorem setRunState_opb (rs : RunState) : (s.setRunState rs).opb = s.opb := rfl
@[simp] theorem setRunState_mem (rs : RunState) : (s.setRunState rs).mem = s.mem := rfl
@[simp] theorem setRunState_runState (rs : RunState) : (s.setRunState rs).runState = rs := rfl
@[simp] theorem setRunState_faultRecord (rs : RunState) : (s.setRunState rs).faultRecord = s.faultRecord := rfl
@[simp] theorem setRunState_output (rs : RunState) : (s.setRunState rs).output = s.output := rfl
@[simp] theorem setRunState_config (rs : RunState) : (s.setRunState rs).config = s.config := rfl
@[simp] theorem setRunState_regs (rs : RunState) : (s.setRunState rs).regs = s.regs := rfl
@[simp] theorem setRunState_reg (rs : RunState) (q : Reg) : (s.setRunState rs).reg q = s.reg q := rfl
@[simp] theorem setRunState_spAddr (rs : RunState) : (s.setRunState rs).spAddr = s.spAddr := rfl
@[simp] theorem setRunState_readMem (rs : RunState) (addr : Int) : readMem (s.setRunState rs) addr = readMem s addr := rfl

@[simp] theorem emit_pc (v : Byte) : (s.emit v).pc = s.pc := rfl
@[simp] theorem emit_ir (v : Byte) : (s.emit v).ir = s.ir := rfl
@[simp] theorem emit_opa (v : Byte) : (s.emit v).opa = s.opa := rfl
@[simp] theorem emit_opb (v : Byte) : (s.emit v).opb = s.opb := rfl
@[simp] theorem emit_mem (v : Byte) : (s.emit v).mem = s.mem := rfl
@[simp] theorem emit_runState (v : Byte) : (s.emit v).runState = s.runState := rfl
@[simp] theorem emit_faultRecord (v : Byte) : (s.emit v).faultRecord = s.faultRecord := rfl
@[simp] theorem emit_output (v : Byte) : (s.emit v).output = s.output ++ [v] := rfl
@[simp] theorem emit_config (v : Byte) : (s.emit v).config = s.config := rfl
@[simp] theorem emit_regs (v : Byte) : (s.emit v).regs = s.regs := rfl
@[simp] theorem emit_reg (v : Byte) (q : Reg) : (s.emit v).reg q = s.reg q := rfl
@[simp] theorem emit_spAddr (v : Byte) : (s.emit v).spAddr = s.spAddr := rfl
@[simp] theorem emit_readMem (v : Byte) (addr : Int) : readMem (s.emit v) addr = readMem s addr := rfl

@[simp] theorem takeFault_pc (e : ErrorKind) : (takeFault s e).pc = s.pc := rfl
@[simp] theorem takeFault_ir (e : ErrorKind) : (takeFault s e).ir = s.ir := rfl
@[simp] theorem takeFault_opa (e : ErrorKind) : (takeFault s e).opa = s.opa := rfl
@[simp] theorem takeFault_opb (e : ErrorKind) : (takeFault s e).opb = s.opb := rfl
@[simp] theorem takeFault_mem (e : ErrorKind) : (takeFault s e).mem = s.mem := rfl
@[simp] theorem takeFault_runState (e : ErrorKind) : (takeFault s e).runState = .faulted := rfl
@[simp] theorem takeFault_faultRecord (e : ErrorKind) : (takeFault s e).faultRecord = some { kind := e, pc := s.pc } := rfl
@[simp] theorem takeFault_output (e : ErrorKind) : (takeFault s e).output = s.output := rfl
@[simp] theorem takeFault_config (e : ErrorKind) : (takeFault s e).config = s.config := rfl
@[simp] theorem takeFault_regs (e : ErrorKind) : (takeFault s e).regs = s.regs := rfl
@[simp] theorem takeFault_reg (e : ErrorKind) (q : Reg) : (takeFault s e).reg q = s.reg q := rfl
@[simp] theorem takeFault_spAddr (e : ErrorKind) : (takeFault s e).spAddr = s.spAddr := rfl
@[simp] theorem takeFault_readMem (e : ErrorKind) (addr : Int) : readMem (takeFault s e) addr = readMem s addr := rfl

@[simp] theorem advance_pc : (advance s).pc = s.pc + BitVec.ofNat 9 (widthOf s.ir) := rfl
@[simp] theorem advance_ir : (advance s).ir = s.ir := rfl
@[simp] theorem advance_opa : (advance s).opa = s.opa := rfl
@[simp] theorem advance_opb : (advance s).opb = s.opb := rfl
@[simp] theorem advance_mem : (advance s).mem = s.mem := rfl
@[simp] theorem advance_runState : (advance s).runState = s.runState := rfl
@[simp] theorem advance_faultRecord : (advance s).faultRecord = s.faultRecord := rfl
@[simp] theorem advance_output : (advance s).output = s.output := rfl
@[simp] theorem advance_config : (advance s).config = s.config := rfl
@[simp] theorem advance_regs : (advance s).regs = s.regs := rfl
@[simp] theorem advance_reg (q : Reg) : (advance s).reg q = s.reg q := rfl
@[simp] theorem advance_spAddr : (advance s).spAddr = s.spAddr := rfl
@[simp] theorem advance_readMem (addr : Int) : readMem (advance s) addr = readMem s addr := rfl

theorem setReg_reg (r : Reg) (v : Byte) (q : Reg) : (s.setReg r v).reg q = if q = r then v else s.reg q := by
  simp only [State.reg, State.setReg, Fin.getElem_fin, Vector.getElem_set, Fin.ext_iff, eq_comm]

@[simp] theorem setReg_reg_same (r : Reg) (v : Byte) : (s.setReg r v).reg r = v := by simp [setReg_reg]

@[simp] theorem setReg_reg_other {r q : Reg} (v : Byte) (h : q ≠ r) : (s.setReg r v).reg q = s.reg q := by
  simp [setReg_reg, h]

@[simp] theorem setReg_spAddr_other {r : Reg} (v : Byte) (h : r ≠ spReg) : (s.setReg r v).spAddr = s.spAddr := by
  simp [State.spAddr, Ne.symm h]

theorem setReg_spAddr_same (v : Byte) : (s.setReg spReg v).spAddr = (v.toNat : Int) := by
  simp [State.spAddr]

/-- Two states with equal fields are equal, registers compared one by one. -/
theorem state_eq {s t : State} (hr : ∀ q, t.reg q = s.reg q) (hp : t.pc = s.pc) (hi : t.ir = s.ir) (ha : t.opa = s.opa)
    (hb : t.opb = s.opb) (hm : t.mem = s.mem) (hs : t.runState = s.runState) (hf : t.faultRecord = s.faultRecord)
    (ho : t.output = s.output) (hc : t.config = s.config) : t = s := by
  have hregs : t.regs = s.regs := by
    ext i hi
    have h := hr ⟨i, hi⟩
    simp only [State.reg, Fin.getElem_fin] at h
    rw [h]
  cases s; cases t; simp_all

/-- The stack pointer's address is inside the address space (10_state.md R23). -/
theorem spAddr_bounds : 0 ≤ s.spAddr ∧ s.spAddr ≤ 255 := by
  have := (s.reg spReg).isLt
  simp only [State.spAddr]
  omega

@[simp] theorem reset_reg (q : Reg) : State.reset.reg q = if q = spReg then spReset else 0 := by
  revert q; decide

end Sys2Proof.Machine
end

