-- ==== Sys2Proof/Laws/Memory.lean ====
section
/-! SUPPORT. The laws of memory: a read after a write, the canonical form, and equality of memories that read alike
(20_memory.md R41, R42, R49). -/

namespace Sys2Proof.Machine

theorem read_consCell (m : Memory) (a : Nat) (v : Byte) (hm : m.read a = unlistedByte) (b : Nat) :
    (consCell a v m).read b = if b = a then v else m.read b := by
  unfold consCell
  by_cases hv : v = unlistedByte <;> by_cases hb : b = a
  · subst hb; simp [hv, hm]
  · simp [hv, hb]
  · simp [hv, hb, Memory.read]
  · simp [hv, hb, Memory.read, Ne.symm hb]

/-- Below every listed address, memory reads as unlisted. -/
theorem read_below {m : Memory} {a : Nat} (h : ∀ c ∈ m, a < c.1) : m.read a = unlistedByte := by
  induction m with
  | nil => rfl
  | cons c rest ih =>
    obtain ⟨k, w⟩ := c
    have hk : a < k := h (k, w) (by simp)
    have hne : k ≠ a := by omega
    simp [Memory.read, hne, ih fun c hc => h c (by simp [hc])]

theorem wf_nil : Memory.wf [] := by simp [Memory.wf]

theorem wf_tail {c : Host.Cell} {m : Memory} (h : Memory.wf (c :: m)) : Memory.wf m :=
  ⟨(List.pairwise_cons.1 h.1).2, fun d hd => h.2 d (by simp [hd])⟩

theorem wf_head {c : Host.Cell} {m : Memory} (h : Memory.wf (c :: m)) : ∀ d ∈ m, c.1 < d.1 :=
  (List.pairwise_cons.1 h.1).1

theorem wf_consCell {m : Memory} {a : Nat} {v : Byte} (hm : m.wf) (ha : a ≤ 255) (hlt : ∀ c ∈ m, a < c.1) :
    (consCell a v m).wf := by
  unfold consCell
  by_cases hv : v = unlistedByte
  · simpa [hv] using hm
  · rw [if_neg hv]
    refine ⟨List.pairwise_cons.2 ⟨hlt, hm.1⟩, fun c hc => ?_⟩
    rcases List.mem_cons.1 hc with rfl | hc
    · exact ⟨ha, hv⟩
    · exact hm.2 c hc

theorem mem_consCell {m : Memory} {a : Nat} {v : Byte} {c : Host.Cell} (h : c ∈ consCell a v m) : c.1 = a ∨ c ∈ m := by
  unfold consCell at h
  split at h
  · exact .inr h
  · rcases List.mem_cons.1 h with rfl | h
    · exact .inl rfl
    · exact .inr h

/-- A write lists no address but its own. -/
theorem mem_write {m : Memory} {a : Nat} {v : Byte} {c : Host.Cell} (h : c ∈ m.write a v) : c.1 = a ∨ c ∈ m := by
  induction m with
  | nil => exact mem_consCell h
  | cons d rest ih =>
    obtain ⟨k, w⟩ := d
    simp only [Memory.write] at h
    split at h
    · exact mem_consCell h
    · split at h
      · rcases mem_consCell h with h | h
        · exact .inl h
        · exact .inr (by simp [h])
      · rcases List.mem_cons.1 h with rfl | h
        · exact .inr (by simp)
        · rcases ih h with h | h
          · exact .inl h
          · exact .inr (by simp [h])

/-- A write keeps the canonical form. -/
theorem write_wf {m : Memory} (hm : m.wf) {a : Nat} (ha : a ≤ 255) (v : Byte) : (m.write a v).wf := by
  induction m with
  | nil => exact wf_consCell hm ha (by simp)
  | cons d rest ih =>
    obtain ⟨k, w⟩ := d
    have htail := wf_tail hm
    have hhead := wf_head hm
    simp only [Memory.write]
    split
    · rename_i hak
      refine wf_consCell hm ha fun c hc => ?_
      rcases List.mem_cons.1 hc with rfl | hc
      · exact hak
      · exact Nat.lt_trans hak (hhead c hc)
    · split
      · rename_i _ hak
        exact wf_consCell htail ha fun c hc => hak ▸ hhead c hc
      · refine ⟨List.pairwise_cons.2 ⟨fun c hc => ?_, (ih htail).1⟩, fun c hc => ?_⟩
        · rcases mem_write hc with h | h
          · simp only; omega
          · exact hhead c h
        · rcases List.mem_cons.1 hc with rfl | hc
          · exact hm.2 _ (by simp)
          · exact (ih htail).2 c hc

/-- A read after a write: the byte written at its address, the old byte elsewhere. -/
theorem read_write {m : Memory} (hm : m.wf) (a : Nat) (v : Byte) (b : Nat) :
    (m.write a v).read b = if b = a then v else m.read b := by
  induction m with
  | nil => exact read_consCell [] a v rfl b
  | cons d rest ih =>
    obtain ⟨k, w⟩ := d
    have hhead := wf_head hm
    simp only [Memory.write]
    split
    · rename_i hak
      refine read_consCell _ a v (read_below fun c hc => ?_) b
      rcases List.mem_cons.1 hc with rfl | hc
      · exact hak
      · exact Nat.lt_trans hak (hhead c hc)
    · split
      · rename_i _ hak
        subst hak
        rw [read_consCell _ _ _ (read_below hhead)]
        by_cases hb : b = a
        · simp [hb]
        · simp [hb, Memory.read, Ne.symm hb]
      · rename_i h1 h2
        by_cases hkb : k = b
        · subst hkb
          simp [Memory.read, Ne.symm h2]
        · simp [Memory.read, hkb, ih (wf_tail hm)]

/-- Memories in canonical form that read alike are equal data. -/
theorem wf_ext {m n : Memory} (hm : m.wf) (hn : n.wf) (h : ∀ a, m.read a = n.read a) : m = n := by
  induction m generalizing n with
  | nil =>
    cases n with
    | nil => rfl
    | cons d rest =>
      have hd := h d.1
      simp only [Memory.read, if_pos] at hd
      exact absurd hd.symm (hn.2 d (by simp)).2
  | cons c m ih =>
    cases n with
    | nil =>
      have hc := h c.1
      simp only [Memory.read, if_pos] at hc
      exact absurd hc (hm.2 c (by simp)).2
    | cons d n =>
      obtain ⟨k, v⟩ := c
      obtain ⟨l, w⟩ := d
      have hv : v ≠ unlistedByte := (hm.2 (k, v) (by simp)).2
      have hw : w ≠ unlistedByte := (hn.2 (l, w) (by simp)).2
      have hkl : k = l := by
        rcases Nat.lt_trichotomy k l with hlt | heq | hgt
        · have := h k
          rw [read_below (m := (l, w) :: n)] at this
          · simp only [Memory.read, if_pos] at this
            exact absurd this hv
          · intro c hc
            rcases List.mem_cons.1 hc with rfl | hc
            · exact hlt
            · exact Nat.lt_trans hlt (wf_head hn c hc)
        · exact heq
        · have := h l
          rw [read_below (m := (k, v) :: m)] at this
          · simp only [Memory.read, if_pos] at this
            exact absurd this.symm hw
          · intro c hc
            rcases List.mem_cons.1 hc with rfl | hc
            · exact hgt
            · exact Nat.lt_trans hgt (wf_head hm c hc)
      subst hkl
      have hvw : v = w := by simpa [Memory.read] using h k
      subst hvw
      have : m = n := by
        refine ih (wf_tail hm) (wf_tail hn) fun a => ?_
        by_cases ha : k = a
        · subst ha
          rw [read_below (wf_head hm), read_below (wf_head hn)]
        · simpa [Memory.read, ha] using h a
      rw [this]

/-- Placing bytes keeps the canonical form. -/
theorem placeBytes_wf {m : Memory} (hm : m.wf) (a : Nat) (bs : List Byte) : (placeBytes m a bs).wf := by
  induction bs generalizing m a with
  | nil => exact hm
  | cons b bs ih =>
    simp only [placeBytes]
    split
    · rename_i ha
      exact ih (write_wf hm ha b) _
    · exact ih hm _

/-- The reset memory is in canonical form. -/
theorem reset_mem_wf : State.reset.mem.wf := wf_nil

/-- `MemRead`'s two cases (20_memory.md R41). -/
theorem readMem_in {s : State} {addr : Int} (h0 : 0 ≤ addr) (h1 : addr ≤ 255) : readMem s addr = .ok (s.mem.read addr.toNat) :=
  if_pos ⟨h0, h1⟩

theorem readMem_out {s : State} {addr : Int} (h : ¬(0 ≤ addr ∧ addr ≤ 255)) :
    readMem s addr = .error (.memoryOutOfBounds addr) := if_neg h

/-- `MemWrite`'s two cases (20_memory.md R42). -/
theorem writeMem_in {s : State} {addr : Int} {v : Byte} (h0 : 0 ≤ addr) (h1 : addr ≤ 255) :
    writeMem s addr v = .ok (s.setMem (s.mem.write addr.toNat v)) := if_pos ⟨h0, h1⟩

theorem writeMem_out {s : State} {addr : Int} {v : Byte} (h : ¬(0 ≤ addr ∧ addr ≤ 255)) :
    writeMem s addr v = .error (.memoryOutOfBounds addr) := if_neg h

/-- What a memory write of a state gives back when it is read. -/
theorem readMem_setMem_write {s : State} (hm : s.mem.wf) {a : Nat} (v : Byte) (addr : Int) (h0 : 0 ≤ addr) (h1 : addr ≤ 255) :
    readMem (s.setMem (s.mem.write a v)) addr = .ok (if addr.toNat = a then v else s.mem.read addr.toNat) := by
  rw [readMem_in h0 h1, setMem_mem, read_write hm]

end Sys2Proof.Machine
end

