-- ==== Sys2Proof/Laws/Ops.lean ====
section
/-! SUPPORT. One lemma per shared operation that says once everything it can do; the provers cite these. -/

namespace Sys2Proof.Machine

variable {s t u : State}

/-! ## Operands -/

theorem chkreg_reg (r : Reg) {a : Byte} (h : a.toNat = r.val) : chkreg a = .ok r := by
  simp [chkreg, h]

theorem chkreg_illegal {a : Byte} (h : 8 ≤ a.toNat) : chkreg a = .error (.illegalRegister a) := by
  simp [chkreg, Nat.not_lt.2 h]

/-- An operand byte names a register or is illegal. -/
theorem chkreg_cases (a : Byte) :
    (∃ r : Reg, a.toNat = r.val ∧ chkreg a = .ok r) ∨ (8 ≤ a.toNat ∧ chkreg a = .error (.illegalRegister a)) := by
  rcases Nat.lt_or_ge a.toNat 8 with h | h
  · exact .inl ⟨⟨a.toNat, h⟩, rfl, chkreg_reg ⟨a.toNat, h⟩ rfl⟩
  · exact .inr ⟨h, chkreg_illegal h⟩

/-! ## Widths -/

theorem topBits_eq (b : Byte) : topBits b = b.toNat / 64 := by
  simp [topBits, Nat.shiftRight_eq_div_pow]

theorem topBits_le (b : Byte) : topBits b ≤ 3 := by
  have := b.isLt
  rw [topBits_eq]
  omega

/-- The advance does not wrap where a handler can run (40_cycle.md R85). -/
theorem advance_toNat (h : s.pc.toNat ≤ 253) : (advance s).pc.toNat = s.pc.toNat + 1 + topBits s.ir := by
  have := topBits_le s.ir
  simp only [advance_pc, widthOf, BitVec.toNat_add, BitVec.toNat_ofNat]
  omega

theorem advance_advances (s : State) : Advances s (advance s) := advance_toNat

@[simp] theorem pcTarget_toNat (v : Byte) : (pcTarget v).toNat = v.toNat := by
  have := v.isLt
  simp only [pcTarget, BitVec.toNat_setWidth]
  omega

/-! ## The stack pointer -/

theorem decremented_toNat {v : Byte} (h : 1 ≤ v.toNat) : (v - 1).toNat = v.toNat - 1 := by
  have h1 : (1 : Byte).toNat = 1 := rfl
  have := v.isLt
  rw [BitVec.toNat_sub, h1]
  omega

theorem incremented_toNat {v : Byte} (h : v.toNat ≤ 254) : (v + 1).toNat = v.toNat + 1 := by
  have h1 : (1 : Byte).toNat = 1 := rfl
  rw [BitVec.toNat_add, h1]
  omega

/-- The stack pointer decremented, or MemoryOutOfBounds(-1) (43_stack.md R120, R121). -/
theorem decSp_cases (s : State) :
    (1 ≤ (s.reg spReg).toNat ∧ decSp s = .ok (s.setReg spReg (s.reg spReg - 1))) ∨
      ((s.reg spReg).toNat = 0 ∧ decSp s = .error (.memoryOutOfBounds (-1))) := by
  rcases Nat.eq_zero_or_pos (s.reg spReg).toNat with h | h
  · right
    simp [decSp, State.spAddr, h]
  · left
    refine ⟨h, ?_⟩
    have hb := (s.reg spReg).isLt
    have hval : BitVec.ofInt 8 (s.spAddr - 1) = s.reg spReg - 1 := by
      apply BitVec.eq_of_toNat_eq
      rw [BitVec.toNat_ofInt, decremented_toNat h, State.spAddr]
      omega
    rw [decSp, if_neg (by simp only [State.spAddr]; omega), hval]

/-- The stack pointer incremented, or MemoryOutOfBounds(256) (43_stack.md R120, R122). -/
theorem incSp_cases (s : State) :
    ((s.reg spReg).toNat ≤ 254 ∧ incSp s = .ok (s.setReg spReg (s.reg spReg + 1))) ∨
      ((s.reg spReg).toNat = 255 ∧ incSp s = .error (.memoryOutOfBounds 256)) := by
  have hb := (s.reg spReg).isLt
  rcases Nat.lt_or_ge (s.reg spReg).toNat 255 with h | h
  · left
    refine ⟨by omega, ?_⟩
    have hval : BitVec.ofInt 8 (s.spAddr + 1) = s.reg spReg + 1 := by
      apply BitVec.eq_of_toNat_eq
      rw [BitVec.toNat_ofInt, incremented_toNat (by omega), State.spAddr]
      omega
    rw [incSp, if_neg (by simp only [State.spAddr]; omega), hval]
  · right
    have h' : (s.reg spReg).toNat = 255 := by omega
    simp [incSp, State.spAddr, h']

theorem decSp_ok (h : 1 ≤ (s.reg spReg).toNat) : decSp s = .ok (s.setReg spReg (s.reg spReg - 1)) := by
  rcases decSp_cases s with ⟨_, h'⟩ | ⟨h0, _⟩
  · exact h'
  · omega

theorem decSp_underflow (h : (s.reg spReg).toNat = 0) : decSp s = .error (.memoryOutOfBounds (-1)) := by
  rcases decSp_cases s with ⟨h1, _⟩ | ⟨_, h'⟩
  · omega
  · exact h'

theorem incSp_ok (h : (s.reg spReg).toNat ≤ 254) : incSp s = .ok (s.setReg spReg (s.reg spReg + 1)) := by
  rcases incSp_cases s with ⟨_, h'⟩ | ⟨h1, _⟩
  · exact h'
  · omega

theorem incSp_overflow (h : (s.reg spReg).toNat = 255) : incSp s = .error (.memoryOutOfBounds 256) := by
  rcases incSp_cases s with ⟨h1, _⟩ | ⟨_, h'⟩
  · omega
  · exact h'

/-- The byte at the stack pointer is always readable (43_stack.md R122). -/
theorem readMem_spAddr (s : State) : readMem s s.spAddr = .ok (s.mem.read (s.reg spReg).toNat) := by
  have := spAddr_bounds s
  rw [readMem_in this.1 this.2, State.spAddr, Int.toNat_natCast]

/-- A pop that stays inside memory (43_stack.md R122). -/
theorem popInto_ok (r : Reg)
    (h : ((s.setReg r (s.mem.read (s.reg spReg).toNat)).reg spReg).toNat ≤ 254) :
    popInto s r = .ok
      ((s.setReg r (s.mem.read (s.reg spReg).toNat)).setReg spReg
        ((s.setReg r (s.mem.read (s.reg spReg).toNat)).reg spReg + 1), s.mem.read (s.reg spReg).toNat) := by
  simp [popInto, readMem_spAddr, bind, Except.bind, incSp_ok h]

/-- A pop whose new stack pointer would be 256 (43_stack.md R122). -/
theorem popInto_overflow (r : Reg)
    (h : ((s.setReg r (s.mem.read (s.reg spReg).toNat)).reg spReg).toNat = 255) :
    popInto s r = .error (.memoryOutOfBounds 256) := by
  simp [popInto, readMem_spAddr, bind, Except.bind, incSp_overflow h]

/-- A write at the decremented stack pointer stays inside memory. -/
theorem writeMem_spAddr (s : State) (v : Byte) :
    writeMem s s.spAddr v = .ok (s.setMem (s.mem.write (s.reg spReg).toNat v)) := by
  have := spAddr_bounds s
  rw [writeMem_in this.1 this.2, State.spAddr, Int.toNat_natCast]

/-! ## The ALU -/

/-- The narrowing's two cases (42_arithmetic.md R110, R111). -/
theorem narrowInto_cases (s : State) (r : Reg) (n : Nat) :
    (s.config.overflow = .fault ∧ 255 < n ∧ narrowInto s r n = .error (.arithmeticOverflow n)) ∨
      ((s.config.overflow = .wrap ∨ n ≤ 255) ∧ narrowInto s r n = .ok (s.setReg r (BitVec.ofNat 8 n))) := by
  rcases Nat.lt_or_ge 255 n with hn | hn
  · cases hp : s.config.overflow
    · right; simp [narrowInto, hp]
    · left; simp [narrowInto, hp, hn]
  · right
    exact ⟨.inr hn, by simp [narrowInto, Nat.not_lt.2 hn]⟩

/-- The comparator's three results (46_compare.md R152). -/
theorem flagcmp_cases (l r : Byte) :
    (l = r ∧ flagcmp l r = flagEqual) ∨ (r.toNat < l.toNat ∧ flagcmp l r = flagGreater) ∨
      (l.toNat < r.toNat ∧ flagcmp l r = flagLess) := by
  by_cases h : l = r
  · exact .inl ⟨h, by simp [flagcmp, h]⟩
  · have hne : l.toNat ≠ r.toNat := fun he => h (BitVec.eq_of_toNat_eq he)
    rcases Nat.lt_or_ge r.toNat l.toNat with hlt | hge
    · exact .inr (.inl ⟨hlt, by simp [flagcmp, h, hlt]⟩)
    · exact .inr (.inr ⟨by omega, by simp [flagcmp, h, Nat.not_lt.2 hge]⟩)

/-! ## The cycle -/

/-- The end of a cycle: a fault entry, an advance, a jump, or a halt (40_cycle.md R88). -/
theorem complete_cases {o : Handled} (h : complete s o = .next t) :
    (∃ e, o = .error e ∧ t = takeFault s e) ∨ (∃ u, o = .ok (u, .continued) ∧ t = advance u) ∨
      (o = .ok (t, .jumped)) ∨ (∃ u, o = .ok (u, .halted) ∧ t = u.setRunState .halted) := by
  rcases o with e | ⟨u, _ | _ | _⟩ <;> simp only [complete, Host.Outcome.next.injEq] at h <;> subst h
  · exact .inl ⟨e, rfl, rfl⟩
  · exact .inr (.inl ⟨u, rfl, rfl⟩)
  · exact .inr (.inr (.inl rfl))
  · exact .inr (.inr (.inr ⟨u, rfl, rfl⟩))

/-- Every handler ends in a next state. -/
theorem complete_next (s : State) (o : Handled) : ∃ t, complete s o = .next t := by
  rcases o with e | ⟨u, _ | _ | _⟩
  · exact ⟨_, rfl⟩
  · exact ⟨_, rfl⟩
  · exact ⟨_, rfl⟩
  · exact ⟨_, rfl⟩

/-- A fetch below the last two addresses latches the window (40_cycle.md R82). -/
theorem fetch_in (h : s.pc.toNat ≤ 253) : fetch s = .ok s.fetched := by
  have h0 : readMem s (s.pc.toNat : Int) = .ok (s.mem.read s.pc.toNat) := by
    rw [readMem_in (by omega) (by omega), Int.toNat_natCast]
  have h1 : readMem s ((s.pc.toNat : Int) + 1) = .ok (s.mem.read (s.pc.toNat + 1)) := by
    rw [readMem_in (by omega) (by omega)]
    exact congrArg (fun n => Except.ok (s.mem.read n)) (by omega)
  have h2 : readMem s ((s.pc.toNat : Int) + 2) = .ok (s.mem.read (s.pc.toNat + 2)) := by
    rw [readMem_in (by omega) (by omega)]
    exact congrArg (fun n => Except.ok (s.mem.read n)) (by omega)
  simp only [fetch, h0, h1, h2, bind, Except.bind]
  rfl

/-- A fetch at 254, 255 or 256 reports address 256 (40_cycle.md R82, 60_exceptions.md R172 (a)). -/
theorem fetch_out (h : 254 ≤ s.pc.toNat) (h' : s.pc.toNat ≤ 256) : fetch s = .error (.memoryOutOfBounds 256) := by
  have hread : ∀ k : Int, 0 ≤ k → k ≤ 255 → ∃ b, readMem s k = .ok b := fun k h0 h1 => ⟨_, readMem_in h0 h1⟩
  have hout : readMem s 256 = .error (.memoryOutOfBounds 256) := readMem_out (by omega)
  rcases (by omega : s.pc.toNat = 254 ∨ s.pc.toNat = 255 ∨ s.pc.toNat = 256) with hp | hp | hp
  · obtain ⟨b, hb⟩ := hread 254 (by omega) (by omega)
    obtain ⟨c, hc⟩ := hread 255 (by omega) (by omega)
    simp [fetch, hp, hb, hc, hout, bind, Except.bind]
  · obtain ⟨c, hc⟩ := hread 255 (by omega) (by omega)
    simp [fetch, hp, hc, hout, bind, Except.bind]
  · simp [fetch, hp, hout, bind, Except.bind]

theorem step_run (h : s.runState = .run) : step s = match beginCycle s with
    | .error (u, e) => .next (takeFault u e)
    | .ok (u, i) => exec i u := by
  cases s; cases h; rfl

/-- What a step that answers a next state did: a fetch fault, an unbound opcode, or the decoded instruction. -/
theorem step_cases (h : step s = .next t) :
    s.runState = .run ∧
      ((∃ e, fetch s = .error e ∧ t = takeFault s e) ∨
        (∃ u e, fetch s = .ok u ∧ decode u.config.opcodes [u.ir, u.opa, u.opb] = .error e ∧
          t = takeFault u (.unknownOpcode u.ir)) ∨
        (∃ u i rest, fetch s = .ok u ∧ decode u.config.opcodes [u.ir, u.opa, u.opb] = .ok (i, rest) ∧
          exec i u = .next t)) := by
  cases hr : s.runState <;> simp only [step, hr] at h <;> try exact absurd h (by simp)
  refine ⟨rfl, ?_⟩
  unfold beginCycle at h
  cases hf : fetch s with
  | error e =>
    simp only [hf, Host.Outcome.next.injEq] at h
    exact .inl ⟨e, rfl, h.symm⟩
  | ok u =>
    simp only [hf] at h
    cases hd : decode u.config.opcodes [u.ir, u.opa, u.opb] with
    | error e =>
      simp only [hd, Host.Outcome.next.injEq] at h
      exact .inr (.inl ⟨u, e, rfl, hd, h.symm⟩)
    | ok p =>
      obtain ⟨i, rest⟩ := p
      simp only [hd] at h
      exact .inr (.inr ⟨u, i, rest, rfl, hd, h⟩)

end Sys2Proof.Machine
end

