-- ==== Sys2Proof/Laws/Decode.lean ====
section
/-! SUPPORT. The decoder's and the encoder's small lemmas (30_encoding.md). -/

namespace Sys2Proof

variable {m : OpcodeMap} {b : Byte} {o : Op}

theorem Op.mem_all (o : Op) : o ∈ Op.all := by cases o <;> decide

/-- What the lookup finds is bound to the byte. -/
theorem lookup_some (h : m.lookup b = some o) : m.byteOf o = b := by
  simpa using List.find?_some h

/-- The lookup finds nothing exactly when no mnemonic is bound to the byte (30_encoding.md R67). -/
theorem lookup_none : m.lookup b = none ↔ ∀ o, m.byteOf o ≠ b := by
  unfold OpcodeMap.lookup
  rw [List.find?_eq_none]
  exact ⟨fun h o => by simpa using h o o.mem_all, fun h o _ => by simpa using h o⟩

/-- Bits 7:6 of a bound opcode are its operand count (30_encoding.md R66 (b)). -/
theorem topBits_byteOf (hm : m.valid) (o : Op) : topBits (m.byteOf o) = o.operandCount := hm.2.1 o o.mem_all

/-- The operands taken are those of the instruction, in order. -/
theorem takeOperands_some {bs rest : List Byte} {i : Instr} (h : takeOperands o bs = some (i, rest)) :
    i.op = o ∧ i.operandBytes ++ rest = bs := by
  cases o <;> simp only [takeOperands, takeF0, takeF1, takeF2] at h <;> rcases bs with _ | ⟨x, _ | ⟨y, bs⟩⟩ <;>
    simp_all <;> obtain ⟨rfl, rfl⟩ := h <;> simp [Instr.op, Instr.operandBytes]

/-- What a decoding that succeeds read: a bound opcode and its operands. -/
theorem decode_ok {bs rest : List Byte} {i : Instr} (h : decode m bs = .ok (i, rest)) :
    ∃ opcode tail, bs = opcode :: tail ∧ m.lookup opcode = some i.op ∧ i.operandBytes ++ rest = tail := by
  cases bs with
  | nil => simp [decode] at h
  | cons opcode tail =>
    simp only [decode] at h
    cases hl : m.lookup opcode with
    | none => simp [hl] at h
    | some o =>
      simp only [hl] at h
      cases ht : takeOperands o tail with
      | none => simp [ht] at h
      | some r =>
        simp only [ht, Except.ok.injEq] at h
        subst h
        obtain ⟨hop, hbytes⟩ := takeOperands_some ht
        exact ⟨opcode, tail, rfl, by rw [hl, hop], hbytes⟩

/-- A three-byte window holds every instruction's operands, so its decoding fails on an unbound opcode only. -/
theorem decode_window_error {a c : Byte} {e : DecodeError} (h : decode m [b, a, c] = .error e) :
    e = .unboundOpcode b ∧ m.lookup b = none := by
  simp only [decode] at h
  cases hl : m.lookup b with
  | none =>
    simp only [hl, Except.error.injEq] at h
    exact ⟨h.symm, rfl⟩
  | some o =>
    cases o <;> simp [hl, takeOperands, takeF0, takeF1, takeF2] at h

end Sys2Proof

namespace Sys2Proof.Machine

variable {s t : State}

/-- A fetch from 254 on fails with MemoryOutOfBounds (40_cycle.md R82). -/
theorem fetch_high (h : 254 ≤ s.pc.toNat) : ∃ addr, fetch s = .error (.memoryOutOfBounds addr) := by
  rcases Nat.lt_or_ge 256 s.pc.toNat with hp | hp
  · have hout : readMem s (s.pc.toNat : Int) = .error (.memoryOutOfBounds (s.pc.toNat : Int)) := readMem_out (by omega)
    exact ⟨(s.pc.toNat : Int), by simp only [fetch, hout, bind, Except.bind]⟩
  · exact ⟨256, fetch_out h hp⟩

/-- What a step that answers a next state did, in terms of the bytes at PC (40_cycle.md R82, R83, R84). -/
theorem step_inv (h : step s = .next t) :
    s.runState = .run ∧
      ((254 ≤ s.pc.toNat ∧ ∃ addr, fetch s = .error (.memoryOutOfBounds addr) ∧ t = takeFault s (.memoryOutOfBounds addr)) ∨
        (s.pc.toNat ≤ 253 ∧ s.config.opcodes.lookup (s.mem.read s.pc.toNat) = none ∧
          t = takeFault s.fetched (.unknownOpcode (s.mem.read s.pc.toNat))) ∨
        (s.pc.toNat ≤ 253 ∧ ∃ i rest,
          decode s.config.opcodes
            [s.mem.read s.pc.toNat, s.mem.read (s.pc.toNat + 1), s.mem.read (s.pc.toNat + 2)] = .ok (i, rest) ∧
          exec i s.fetched = .next t)) := by
  obtain ⟨hr, h⟩ := step_cases h
  refine ⟨hr, ?_⟩
  rcases Nat.lt_or_ge s.pc.toNat 254 with hp | hp
  · have hp' : s.pc.toNat ≤ 253 := by omega
    rw [fetch_in hp'] at h
    rcases h with ⟨e, he, -⟩ | ⟨u, e, hu, hd, ht⟩ | ⟨u, i, rest, hu, hd, ht⟩
    · exact absurd he (by simp)
    · obtain rfl : s.fetched = u := by simpa using hu
      exact .inr (.inl ⟨hp', (decode_window_error hd).2, ht⟩)
    · obtain rfl : s.fetched = u := by simpa using hu
      exact .inr (.inr ⟨hp', i, rest, hd, ht⟩)
  · left
    obtain ⟨addr, hf⟩ := fetch_high hp
    rw [hf] at h
    refine ⟨hp, addr, hf, ?_⟩
    rcases h with ⟨e, he, ht⟩ | ⟨u, e, hu, -⟩ | ⟨u, i, rest, hu, -⟩
    · obtain rfl : ErrorKind.memoryOutOfBounds addr = e := by simpa using he
      exact ht
    · exact absurd hu (by simp)
    · exact absurd hu (by simp)

end Sys2Proof.Machine
end

