-- ==== Sys2Proof/Laws/Exec.lean ====
section
/-! SUPPORT. What `exec` can do, said once: the fault entry with a kind that a handler raises, or the instruction's own effect. -/

namespace Sys2Proof.Machine

variable {s t : State}

/-- What each handler leaves when it raises nothing, the end of the cycle included (40_cycle.md R88). -/
def Effect (s t : State) : Instr → Prop
  | .ldi a imm => ∃ r : Reg, a.toNat = r.val ∧ t = advance (s.setReg r imm)
  | .prn a => ∃ r : Reg, a.toNat = r.val ∧ t = advance (s.emit (s.reg r))
  | .add a b => ∃ p q : Reg, a.toNat = p.val ∧ b.toNat = q.val ∧
      t = advance (s.setReg p (BitVec.ofNat 8 ((s.reg p).toNat + (s.reg q).toNat)))
  | .mul a b => ∃ p q : Reg, a.toNat = p.val ∧ b.toNat = q.val ∧
      t = advance (s.setReg p (BitVec.ofNat 8 ((s.reg p).toNat * (s.reg q).toNat)))
  | .push a => ∃ r : Reg, a.toNat = r.val ∧ 1 ≤ (s.reg spReg).toNat ∧
      t = advance ((s.setReg spReg (s.reg spReg - 1)).setMem
        (s.mem.write (s.reg spReg - 1).toNat ((s.setReg spReg (s.reg spReg - 1)).reg r)))
  | .pop a => ∃ (r : Reg) (v : Byte), a.toNat = r.val ∧ v = s.mem.read (s.reg spReg).toNat ∧
      ((s.setReg r v).reg spReg).toNat ≤ 254 ∧
      t = advance ((s.setReg r v).setReg spReg ((s.setReg r v).reg spReg + 1))
  | .call a => ∃ r : Reg, a.toNat = r.val ∧ 1 ≤ (s.reg spReg).toNat ∧
      t = ((s.setReg spReg (s.reg spReg - 1)).setMem
        (s.mem.write (s.reg spReg - 1).toNat (returnAddress s))).setPc (pcTarget ((s.setReg spReg (s.reg spReg - 1)).reg r))
  | .ret => ∃ v, v = s.mem.read (s.reg spReg).toNat ∧
      ((s.config.retScratch = .operandA ∧ ∃ r : Reg, s.opa.toNat = r.val ∧ ((s.setReg r v).reg spReg).toNat ≤ 254 ∧
          t = ((s.setReg r v).setReg spReg ((s.setReg r v).reg spReg + 1)).setPc (pcTarget v)) ∨
        (s.config.retScratch = .internal ∧ (s.reg spReg).toNat ≤ 254 ∧
          t = (s.setReg spReg (s.reg spReg + 1)).setPc (pcTarget v)))
  | .jmp a => ∃ r : Reg, a.toNat = r.val ∧ t = s.setPc (pcTarget (s.reg r))
  | .jeq a => ∃ r : Reg, a.toNat = r.val ∧
      t = if equalHolds (s.reg flagsReg) then s.setPc (pcTarget (s.reg r)) else advance s
  | .jne a => ∃ r : Reg, a.toNat = r.val ∧
      t = if notEqualHolds (s.reg flagsReg) then s.setPc (pcTarget (s.reg r)) else advance s
  | .cmp a b => ∃ p q : Reg, a.toNat = p.val ∧ b.toNat = q.val ∧
      t = advance (s.setReg flagsReg (flagcmp (s.reg p) (s.reg q)))
  | .hlt => t = s.setRunState .halted

/-- The kinds a handler raises are those of the core, apart from UnknownOpcode, which dispatch raises (60_exceptions.md R170). -/
def HandlerFault (s t : State) : Prop :=
  ∃ e : ErrorKind, e.raisedInCore s.config ∧ (∀ b, e ≠ .unknownOpcode b) ∧ t = takeFault s e

theorem illegal_handlerFault {n : Byte} (h : 8 ≤ n.toNat) : HandlerFault s (takeFault s (.illegalRegister n)) :=
  ⟨.illegalRegister n, h, by simp, rfl⟩

theorem underflow_handlerFault : HandlerFault s (takeFault s (.memoryOutOfBounds (-1))) :=
  ⟨.memoryOutOfBounds (-1), .inl rfl, by simp, rfl⟩

theorem overflow_handlerFault : HandlerFault s (takeFault s (.memoryOutOfBounds 256)) :=
  ⟨.memoryOutOfBounds 256, .inr rfl, by simp, rfl⟩

theorem arithmetic_handlerFault {n : Nat} (hp : s.config.overflow = .fault) (h : 255 < n) (h' : n ≤ 65025) :
    HandlerFault s (takeFault s (.arithmeticOverflow n)) := ⟨.arithmeticOverflow n, ⟨hp, h, h'⟩, by simp, rfl⟩

theorem popInto_cases (s : State) (r : Reg) (v : Byte) (hv : v = s.mem.read (s.reg spReg).toNat) :
    (((s.setReg r v).reg spReg).toNat ≤ 254 ∧
        popInto s r = .ok ((s.setReg r v).setReg spReg ((s.setReg r v).reg spReg + 1), v)) ∨
      popInto s r = .error (.memoryOutOfBounds 256) := by
  subst hv
  have hb := ((s.setReg r (s.mem.read (s.reg spReg).toNat)).reg spReg).isLt
  rcases Nat.lt_or_ge ((s.setReg r (s.mem.read (s.reg spReg).toNat)).reg spReg).toNat 255 with h | h
  · exact .inl ⟨by omega, popInto_ok r (by omega)⟩
  · exact .inr (popInto_overflow r (by omega))

theorem product_le (x y : Byte) : x.toNat * y.toNat ≤ 65025 :=
  Nat.mul_le_mul (Nat.le_of_lt_succ x.isLt) (Nat.le_of_lt_succ y.isLt)

/-- Every next state of `exec` is a fault entry or the instruction's effect. -/
theorem exec_cases (i : Instr) (s : State) : ∃ t, exec i s = .next t ∧ (HandlerFault s t ∨ Effect s t i) := by
  cases i with
  | ldi a imm =>
    rcases chkreg_cases a with ⟨r, hr, h⟩ | ⟨hn, h⟩ <;> simp only [exec, execLdi, h, bind, Except.bind, complete]
    · exact ⟨_, rfl, .inr ⟨r, hr, rfl⟩⟩
    · exact ⟨_, rfl, .inl (illegal_handlerFault hn)⟩
  | prn a =>
    rcases chkreg_cases a with ⟨r, hr, h⟩ | ⟨hn, h⟩ <;> simp only [exec, execPrn, h, bind, Except.bind, complete]
    · exact ⟨_, rfl, .inr ⟨r, hr, rfl⟩⟩
    · exact ⟨_, rfl, .inl (illegal_handlerFault hn)⟩
  | add a b =>
    rcases chkreg_cases a with ⟨p, hp, h⟩ | ⟨hn, h⟩
    · rcases chkreg_cases b with ⟨q, hq, h'⟩ | ⟨hn, h'⟩
      · have hx := (s.reg p).isLt
        have hy := (s.reg q).isLt
        rcases narrowInto_cases s p ((s.reg p).toNat + (s.reg q).toNat) with ⟨hf, hlt, e⟩ | ⟨_, e⟩ <;>
          simp only [exec, execAdd, aluHandler, h, h', alu, e, bind, Except.bind, complete]
        · exact ⟨_, rfl, .inl (arithmetic_handlerFault hf hlt (by omega))⟩
        · exact ⟨_, rfl, .inr ⟨p, q, hp, hq, rfl⟩⟩
      · simp only [exec, execAdd, aluHandler, h, h', bind, Except.bind, complete]
        exact ⟨_, rfl, .inl (illegal_handlerFault hn)⟩
    · simp only [exec, execAdd, aluHandler, h, bind, Except.bind, complete]
      exact ⟨_, rfl, .inl (illegal_handlerFault hn)⟩
  | mul a b =>
    rcases chkreg_cases a with ⟨p, hp, h⟩ | ⟨hn, h⟩
    · rcases chkreg_cases b with ⟨q, hq, h'⟩ | ⟨hn, h'⟩
      · rcases narrowInto_cases s p ((s.reg p).toNat * (s.reg q).toNat) with ⟨hf, hlt, e⟩ | ⟨_, e⟩ <;>
          simp only [exec, execMul, aluHandler, h, h', alu, e, bind, Except.bind, complete]
        · exact ⟨_, rfl, .inl (arithmetic_handlerFault hf hlt (product_le _ _))⟩
        · exact ⟨_, rfl, .inr ⟨p, q, hp, hq, rfl⟩⟩
      · simp only [exec, execMul, aluHandler, h, h', bind, Except.bind, complete]
        exact ⟨_, rfl, .inl (illegal_handlerFault hn)⟩
    · simp only [exec, execMul, aluHandler, h, bind, Except.bind, complete]
      exact ⟨_, rfl, .inl (illegal_handlerFault hn)⟩
  | push a =>
    rcases chkreg_cases a with ⟨r, hr, h⟩ | ⟨hn, h⟩
    · rcases decSp_cases s with ⟨h1, e⟩ | ⟨_, e⟩ <;>
        simp only [exec, execPush, h, e, writeMem_spAddr, bind, Except.bind, complete]
      · exact ⟨_, rfl, .inr ⟨r, hr, h1, by rw [setReg_reg_same, setReg_mem]⟩⟩
      · exact ⟨_, rfl, .inl underflow_handlerFault⟩
    · simp only [exec, execPush, h, bind, Except.bind, complete]
      exact ⟨_, rfl, .inl (illegal_handlerFault hn)⟩
  | pop a =>
    rcases chkreg_cases a with ⟨r, hr, h⟩ | ⟨hn, h⟩
    · rcases popInto_cases s r _ rfl with ⟨h1, e⟩ | e <;> simp only [exec, execPop, h, e, bind, Except.bind, complete]
      · exact ⟨_, rfl, .inr ⟨r, _, hr, rfl, h1, rfl⟩⟩
      · exact ⟨_, rfl, .inl overflow_handlerFault⟩
    · simp only [exec, execPop, h, bind, Except.bind, complete]
      exact ⟨_, rfl, .inl (illegal_handlerFault hn)⟩
  | call a =>
    rcases chkreg_cases a with ⟨r, hr, h⟩ | ⟨hn, h⟩
    · rcases decSp_cases s with ⟨h1, e⟩ | ⟨_, e⟩ <;>
        simp only [exec, execCall, h, e, writeMem_spAddr, bind, Except.bind, complete]
      · exact ⟨_, rfl, .inr ⟨r, hr, h1, by rw [setReg_reg_same, setReg_mem]; rfl⟩⟩
      · exact ⟨_, rfl, .inl underflow_handlerFault⟩
    · simp only [exec, execCall, h, bind, Except.bind, complete]
      exact ⟨_, rfl, .inl (illegal_handlerFault hn)⟩
  | ret =>
    cases hc : s.config.retScratch with
    | operandA =>
      rcases chkreg_cases s.opa with ⟨r, hr, h⟩ | ⟨hn, h⟩
      · rcases popInto_cases s r _ rfl with ⟨h1, e⟩ | e <;>
          simp only [exec, execRet, hc, retOperandA, h, e, bind, Except.bind, complete]
        · exact ⟨_, rfl, .inr ⟨_, rfl, .inl ⟨hc, r, hr, h1, rfl⟩⟩⟩
        · exact ⟨_, rfl, .inl overflow_handlerFault⟩
      · simp only [exec, execRet, hc, retOperandA, h, bind, Except.bind, complete]
        exact ⟨_, rfl, .inl (illegal_handlerFault hn)⟩
    | internal =>
      rcases incSp_cases s with ⟨h1, e⟩ | ⟨_, e⟩ <;>
        simp only [exec, execRet, hc, retInternal, readMem_spAddr, e, bind, Except.bind, complete]
      · exact ⟨_, rfl, .inr ⟨_, rfl, .inr ⟨hc, h1, rfl⟩⟩⟩
      · exact ⟨_, rfl, .inl overflow_handlerFault⟩
  | jmp a =>
    rcases chkreg_cases a with ⟨r, hr, h⟩ | ⟨hn, h⟩ <;> simp only [exec, execJmp, jumpWhen, h, bind, Except.bind, complete]
    · exact ⟨_, rfl, .inr ⟨r, hr, rfl⟩⟩
    · exact ⟨_, rfl, .inl (illegal_handlerFault hn)⟩
  | jeq a =>
    rcases chkreg_cases a with ⟨r, hr, h⟩ | ⟨hn, h⟩ <;> simp only [exec, execJeq, jumpWhen, h, bind, Except.bind]
    · exact ⟨_, by split <;> rfl, .inr ⟨r, hr, rfl⟩⟩
    · exact ⟨_, rfl, .inl (illegal_handlerFault hn)⟩
  | jne a =>
    rcases chkreg_cases a with ⟨r, hr, h⟩ | ⟨hn, h⟩ <;> simp only [exec, execJne, jumpWhen, h, bind, Except.bind]
    · exact ⟨_, by split <;> rfl, .inr ⟨r, hr, rfl⟩⟩
    · exact ⟨_, rfl, .inl (illegal_handlerFault hn)⟩
  | cmp a b =>
    rcases chkreg_cases a with ⟨p, hp, h⟩ | ⟨hn, h⟩
    · rcases chkreg_cases b with ⟨q, hq, h'⟩ | ⟨hn, h'⟩ <;>
        simp only [exec, execCmp, aluHandler, h, h', alu, bind, Except.bind, complete]
      · exact ⟨_, rfl, .inr ⟨p, q, hp, hq, rfl⟩⟩
      · exact ⟨_, rfl, .inl (illegal_handlerFault hn)⟩
    · simp only [exec, execCmp, aluHandler, h, bind, Except.bind, complete]
      exact ⟨_, rfl, .inl (illegal_handlerFault hn)⟩
  | hlt => exact ⟨_, rfl, .inr rfl⟩

/-- The inversion of `exec` for a next state that is given. -/
theorem exec_inv {i : Instr} (h : exec i s = .next t) : HandlerFault s t ∨ Effect s t i := by
  obtain ⟨u, hu, hc⟩ := exec_cases i s
  rw [h] at hu
  obtain rfl : t = u := by simpa using hu
  exact hc

end Sys2Proof.Machine
end

