-- ==== Sys2Proof/Laws/PerInstr.lean ====
section
/-! SUPPORT. A statement for all instructions, one lemma per constructor: the operand bytes are as many as the mnemonic's format
has, and are read back in order (30_encoding.md R61, R63). -/

namespace Sys2Proof.Laws.OperandBytes

/-- The operand bytes of an instruction fit its mnemonic's format. -/
def Statement (i : Instr) : Prop :=
  i.operandBytes.length = i.op.operandCount ∧ ∀ rest, takeOperands i.op (i.operandBytes ++ rest) = some (i, rest)

theorem ldi (a imm : Byte) : Statement (.ldi a imm) := ⟨rfl, fun _ => rfl⟩
theorem prn (a : Byte) : Statement (.prn a) := ⟨rfl, fun _ => rfl⟩
theorem add (a b : Byte) : Statement (.add a b) := ⟨rfl, fun _ => rfl⟩
theorem mul (a b : Byte) : Statement (.mul a b) := ⟨rfl, fun _ => rfl⟩
theorem push (a : Byte) : Statement (.push a) := ⟨rfl, fun _ => rfl⟩
theorem pop (a : Byte) : Statement (.pop a) := ⟨rfl, fun _ => rfl⟩
theorem call (a : Byte) : Statement (.call a) := ⟨rfl, fun _ => rfl⟩
theorem ret : Statement .ret := ⟨rfl, fun _ => rfl⟩
theorem jmp (a : Byte) : Statement (.jmp a) := ⟨rfl, fun _ => rfl⟩
theorem jeq (a : Byte) : Statement (.jeq a) := ⟨rfl, fun _ => rfl⟩
theorem jne (a : Byte) : Statement (.jne a) := ⟨rfl, fun _ => rfl⟩
theorem cmp (a b : Byte) : Statement (.cmp a b) := ⟨rfl, fun _ => rfl⟩
theorem hlt : Statement .hlt := ⟨rfl, fun _ => rfl⟩

end Sys2Proof.Laws.OperandBytes
end

