-- ==== Sys2Proof/Tests/Slice0.lean ====
section
/-! SUPPORT. The model's own tests: well-formedness, decoding of words written out from the spec's encodings, one step per
instruction against the vectors of spec/95_test_vectors.md, and a witness for the hypotheses of every statement. -/

namespace Sys2Proof.Tests

open Sys2Proof.Machine

/-! ## Helpers -/

/-- A running machine at `pc` with bytes there, every other piece of state as at reset. -/
def running (pc : Pc) (bytes : List Byte) : State :=
  { State.reset with pc := pc, mem := placeBytes [] pc.toNat bytes, runState := .run }

/-- A state with one more byte of memory. -/
def poke (s : State) (a : Nat) (v : Byte) : State := s.setMem (s.mem.write a v)

/-- A state under the other overflow policy. -/
def faulting (s : State) : State := { s with config := { s.config with overflow := .fault } }

/-- A state under the other choice of RET's scratch register. -/
def internalRet (s : State) : State := { s with config := { s.config with retScratch := .internal } }

/-- The state that a step answers. -/
def after (s : State) : Option State :=
  match step s with
  | .next t => some t
  | .fault _ => none
  | .refused _ => none

/-- What a step leaves in the fault record. -/
def faultAfter (s : State) : Option FaultRecord := (after s).bind (·.faultRecord)

/-! ## Well-formedness: each check refuses an ill-formed term -/

theorem test_wf_ldi : (Instr.ldi 8 0).wf = false ∧ (Instr.ldi 7 255).wf = true := by decide
theorem test_wf_prn : (Instr.prn 10).wf = false ∧ (Instr.prn 7).wf = true := by decide
theorem test_wf_add : (Instr.add 9 0).wf = false ∧ (Instr.add 0 9).wf = false ∧ (Instr.add 7 7).wf = true := by decide
theorem test_wf_mul : (Instr.mul 8 0).wf = false ∧ (Instr.mul 0 255).wf = false ∧ (Instr.mul 0 7).wf = true := by decide
theorem test_wf_push : (Instr.push 8).wf = false ∧ (Instr.push 7).wf = true := by decide
theorem test_wf_pop : (Instr.pop 8).wf = false ∧ (Instr.pop 7).wf = true := by decide
theorem test_wf_call : (Instr.call 8).wf = false ∧ (Instr.call 7).wf = true := by decide
theorem test_wf_jmp : (Instr.jmp 8).wf = false ∧ (Instr.jmp 7).wf = true := by decide
theorem test_wf_jeq : (Instr.jeq 8).wf = false ∧ (Instr.jeq 7).wf = true := by decide
theorem test_wf_jne : (Instr.jne 8).wf = false ∧ (Instr.jne 7).wf = true := by decide
theorem test_wf_cmp : (Instr.cmp 8 0).wf = false ∧ (Instr.cmp 0 11).wf = false ∧ (Instr.cmp 7 7).wf = true := by decide

/-! ## Decoding: words written out bit by bit from 30_encoding.md R61 and R65 -/

theorem test_decode_ldi : decode defaultOpcodeMap [0b10000010, 0b00000011, 0b00001000] = .ok (.ldi 3 8, []) := by decide
theorem test_decode_prn : decode defaultOpcodeMap [0b01000111, 0b00000010, 0xFF] = .ok (.prn 2, [0xFF]) := by decide
theorem test_decode_add : decode defaultOpcodeMap [0b10100000, 0b00000111, 0b00000001] = .ok (.add 7 1, []) := by decide
theorem test_decode_mul : decode defaultOpcodeMap [0b10100010, 0b00000101, 0b00000110] = .ok (.mul 5 6, []) := by decide
theorem test_decode_push : decode defaultOpcodeMap [0b01000101, 0b00000010, 0x00] = .ok (.push 2, [0]) := by decide
theorem test_decode_pop : decode defaultOpcodeMap [0b01000110, 0b00000110, 0x00] = .ok (.pop 6, [0]) := by decide
theorem test_decode_call : decode defaultOpcodeMap [0b01010000, 0b00000001, 0x00] = .ok (.call 1, [0]) := by decide
theorem test_decode_ret : decode defaultOpcodeMap [0b00010001, 0x05, 0x00] = .ok (.ret, [5, 0]) := by decide
theorem test_decode_jmp : decode defaultOpcodeMap [0b01010100, 0b00000011, 0x00] = .ok (.jmp 3, [0]) := by decide
theorem test_decode_jeq : decode defaultOpcodeMap [0b01010101, 0b00000010, 0x00] = .ok (.jeq 2, [0]) := by decide
theorem test_decode_jne : decode defaultOpcodeMap [0b01010110, 0b00000011, 0x00] = .ok (.jne 3, [0]) := by decide
theorem test_decode_cmp : decode defaultOpcodeMap [0b10100111, 0b00000100, 0b00000010] = .ok (.cmp 4 2, []) := by decide
theorem test_decode_hlt : decode defaultOpcodeMap [0b00000001, 0xFF, 0xFF] = .ok (.hlt, [0xFF, 0xFF]) := by decide

theorem test_decode_zero_is_unbound : decode defaultOpcodeMap [0x00, 0x00, 0x00] = .error (.unboundOpcode 0) := by decide
theorem test_decode_truncated : decode defaultOpcodeMap [0x82, 0x00] = .error .truncated := by decide
theorem test_encode_ldi : encode defaultOpcodeMap (.ldi 0 8) = [0x82, 0x00, 0x08] := by decide
theorem test_default_map_valid : defaultOpcodeMap.valid := by decide

/-! ## The cycle: V-CYC-1, V-CYC-5, V-CYC-8 -/

theorem test_cyc_1 : (after (running 253 [0x82, 0x00, 0x07])).map (fun t => (t.reg 0, t.pc)) = some (7, 256) := by decide
theorem test_cyc_5 : faultAfter (running 254 [0xFF]) = some ⟨.memoryOutOfBounds 256, 254⟩ := by decide
theorem test_cyc_8 : faultAfter (running 0 [0xC2, 0x00, 0x00]) = some ⟨.unknownOpcode 0xC2, 0⟩ := by decide

/-! ## One step per instruction: the vectors of 95_test_vectors.md, by their names -/

theorem test_ldi_4 : (after (running 0 [0x82, 0x07, 0x10])).map (fun t => (t.reg 7, t.pc)) = some (16, 3) := by decide
theorem test_ldi_5 : (after (running 0 [0x82, 0x08, 0x01])).map (fun t => (t.runState, t.faultRecord, t.pc)) =
    some (.faulted, some ⟨.illegalRegister 8, 0⟩, 0) := by decide
theorem test_prn_4 : (after ((running 0 [0x47, 0x02, 0xFF]).setReg 2 9)).map (fun t => (t.output, t.pc)) = some ([9], 2) := by
  decide
theorem test_prn_5 : (after (running 0 [0x47, 0x0A])).map (fun t => (t.output, t.faultRecord)) =
    some ([], some ⟨.illegalRegister 10, 0⟩) := by decide
theorem test_add_2_wrap : (after (((running 0 [0xA0, 0, 1]).setReg 0 200).setReg 1 100)).map (·.reg 0) = some 44 := by decide
theorem test_add_2_fault : faultAfter (faulting (((running 0 [0xA0, 0, 1]).setReg 0 200).setReg 1 100)) =
    some ⟨.arithmeticOverflow 300, 0⟩ := by decide
theorem test_mul_2_wrap : (after ((running 0 [0xA2, 1, 1]).setReg 1 100)).map (·.reg 1) = some 16 := by decide
theorem test_mul_3_fault : faultAfter (faulting (((running 0 [0xA2, 0, 1]).setReg 0 255).setReg 1 255)) =
    some ⟨.arithmeticOverflow 65025, 0⟩ := by decide
theorem test_push_2 : (after (running 0 [0x45, 0x07])).map (fun t => (t.reg 7, t.mem.read 254)) = some (254, 254) := by decide
theorem test_push_6 : (after (((running 6 [0x45, 0x02]).setReg 7 8).setReg 2 5)).map (fun t => (t.reg 7, t.mem.read 7, t.pc)) =
    some (7, 5, 8) := by decide
theorem test_pop_3 : (after ((poke (running 0 [0x46, 0x07]) 250 40).setReg 7 250)).map (·.reg 7) = some 41 := by decide
theorem test_pop_4 : (after ((poke (running 0 [0x46, 0x07]) 250 255).setReg 7 250)).map (fun t => (t.faultRecord, t.reg 7)) =
    some (some ⟨.memoryOutOfBounds 256, 0⟩, 250) := by decide
theorem test_call_3 : (after ((running 10 [0x50, 0x07]).setReg 7 100)).map (fun t => (t.reg 7, t.mem.read 99, t.pc)) =
    some (99, 12, 99) := by decide
theorem test_call_4 : (after (running 253 [0x50, 0x00])).map (fun t => (t.reg 7, t.mem.read 254, t.pc)) =
    some (254, 255, 0) := by decide
theorem test_ret_4 : (after ((poke (running 27 [0x11, 0x07]) 254 11).setReg 7 254)).map (fun t => (t.reg 7, t.pc)) =
    some (12, 11) := by decide
theorem test_ret_6 : (after (internalRet ((poke (running 27 [0x11, 0x05]) 254 11).setReg 7 254))).map
    (fun t => (t.reg 7, t.pc, t.reg 5)) = some (255, 11, 0) := by decide
theorem test_jmp_1 : (after ((running 20 [0x54, 0x03]).setReg 3 12)).map (·.pc) = some 12 := by decide
theorem test_jeq_1 : (after (((running 20 [0x55, 0x02]).setReg 6 1).setReg 2 40)).map (·.pc) = some 40 := by decide
theorem test_jeq_4 : (after (((running 20 [0x55, 0x02]).setReg 6 3).setReg 2 40)).map (·.pc) = some 22 := by decide
theorem test_jne_2 : (after (((running 20 [0x56, 0x03]).setReg 6 4).setReg 3 12)).map (·.pc) = some 12 := by decide
theorem test_jne_4 : (after ((running 20 [0x56, 0x03]).setReg 3 12)).map (·.pc) = some 22 := by decide
theorem test_cmp_4 : (after ((running 0 [0xA7, 0x00, 0x01]).setReg 1 255)).map (·.reg 6) = some 4 := by decide
theorem test_cmp_7 : (after (((running 0 [0xA7, 0x06, 0x01]).setReg 6 4).setReg 1 1)).map (·.reg 6) = some 2 := by decide
theorem test_hlt_1 : (after (running 5 [0x01])).map (fun t => (t.runState, t.pc)) = some (.halted, 5) := by decide
theorem test_hlt_at_254 : faultAfter (running 254 [0x01]) = some ⟨.memoryOutOfBounds 256, 254⟩ := by decide

/-! ## The host: E1's image text, an empty image, the placing of one instruction -/

theorem test_image_text : parseImage "10000010 # LDI R0,8\n00000000\n\n# comment\n  00001000\n".toList = .ok [0x82, 0x00, 0x08] := by
  decide
theorem test_image_bad_line : parseImage "00000001\n0000002\n".toList = .error (.malformedProgramLine 2) := by decide
theorem test_fetch_word_ret : (after (State.reset.withFetchWord 8 0x11)).map hostStatus =
    some (.faulted, some ⟨.memoryOutOfBounds 256, 0⟩) := by decide
theorem test_fetch_word_ldi : (after (State.reset.withFetchWord 24 0x080082)).map (fun t => (t.reg 0, t.pc)) = some (8, 3) := by
  decide

/-! ## Witnesses: a concrete state and operands that meet the hypotheses of each statement, each clause at a boundary -/

/-- A state at PC 253 with an LDI there, under the invariant. -/
theorem witness_InvariantKeptByEveryStep : (running 253 [0x82, 0x00, 0x07]).Inv ∧ ∃ t, step (running 253 [0x82, 0x00, 0x07]) = .next t :=
  ⟨⟨by decide, by decide, by decide, by decide, fun _ h => absurd h (by simp [running, State.reset]), by decide⟩, _, rfl⟩

theorem witness_DecodeOfEncodeIsTheInstruction : defaultOpcodeMap.valid := by decide
theorem witness_WidthIsOnePlusTopBits : defaultOpcodeMap.valid ∧ topBits 0xC0 = 3 := by decide
theorem witness_DecodedBytesAreTheEncoding : decode defaultOpcodeMap [0x01] = .ok (.hlt, []) := by decide
theorem witness_UnboundOpcodeBytesAreRefused :
    (∀ o, defaultOpcodeMap.byteOf o ≠ 0x00) ∧ defaultOpcodeMap.valid ∧ 0xC0 ≤ (0xC0 : Byte).toNat :=
  ⟨by intro o; cases o <;> decide, by decide, by decide⟩

theorem witness_StepRunsTheDecodedInstruction :
    (running 253 [0x01]).runState = .run ∧ (running 253 [0x01]).pc.toNat ≤ 253 ∧
      decode (running 253 [0x01]).config.opcodes [0x01, 0, 0] = .ok (.hlt, [0, 0]) ∧ (running 253 [0x01]).mem.read 253 = 0x01 := by
  decide

theorem witness_StepsExactlyInRun :
    State.reset.runState = .idle ∧ (running 0 []).runState = .run ∧ ((running 0 []).setRunState .halted).runState = .halted ∧
      (takeFault (running 0 []) (.unknownOpcode 0)).runState = .faulted := by decide

theorem witness_FetchReadsTheWindowOrFaults :
    (running 253 []).pc.toNat = 253 ∧ (running 254 []).pc.toNat = 254 ∧ (running 256 []).pc.toNat = 256 ∧
      (running 256 []).runState = .run := by decide

theorem witness_UnboundOpcodeFaultsAtDispatch :
    (running 253 [0x00]).runState = .run ∧ (running 253 [0x00]).pc.toNat ≤ 253 ∧
      ∀ o, (running 253 [0x00]).config.opcodes.byteOf o ≠ (running 253 [0x00]).mem.read (running 253 [0x00]).pc.toNat :=
  ⟨by decide, by decide, by intro o; cases o <;> decide⟩

/-- HLT, a jump, and an advance, each at PC 253. -/
theorem witness_PcAfterACycle :
    (∃ t, step (running 253 [0x01]) = .next t ∧ t.runState ≠ .faulted ∧ t.pc = 253) ∧
      (∃ t, step (running 253 [0x54, 0x07]) = .next t ∧ t.runState ≠ .faulted ∧ jumps (running 253 [0x54, 0x07]) (.jmp 7) ∧
        t.pc = 255) ∧
      (∃ t, step (running 253 [0xA0, 0x00, 0x00]) = .next t ∧ t.runState ≠ .faulted ∧ ¬jumps (running 253 [0xA0]) (.add 0 0) ∧
        t.pc = 256) :=
  ⟨⟨_, rfl, by decide, by decide⟩, ⟨_, rfl, by decide, trivial, by decide⟩, ⟨_, rfl, by decide, fun h => h, by decide⟩⟩

/-- A jump whose target is 254, from a state in RUN. -/
theorem witness_JumpTargetsAreCheckedAtTheNextFetch :
    ∃ t, exec (.jmp 0) ((running 0 []).setReg 0 254) = .next t ∧ ((running 0 []).setReg 0 254).runState = .run ∧
      t.runState = .run ∧ jumps ((running 0 []).setReg 0 254) (.jmp 0) ∧ t.pc.toNat = 254 :=
  ⟨_, rfl, by decide, by decide, trivial, by decide⟩

theorem witness_RunStopsAtTheFirstFinalState :
    (runCycles 1 (running 0 [0x01])).runState = .halted ∧ (runCycles 1 (running 0 [0x47, 0x00])).runState = .run := by decide

/-- One operand byte for the statements of a single register operand: LDI, PRN, JMP, JEQ, JNE. -/
theorem witness_LdiLoadsTheImmediate : (7 : Byte).toNat = (7 : Reg).val := by decide
theorem witness_PrnEmitsTheRegister : (6 : Byte).toNat = (6 : Reg).val := by decide
theorem witness_JmpSetsThePc : (0 : Byte).toNat = (0 : Reg).val := by decide
theorem witness_JeqJumpsExactlyOnEqual :
    (7 : Byte).toNat = (7 : Reg).val ∧ ((running 0 []).setReg 6 1).reg flagsReg = 1 ∧ ((running 0 []).setReg 6 3).reg flagsReg ≠ 1 := by
  decide
theorem witness_JneJumpsExactlyOnGreaterOrLess :
    (7 : Byte).toNat = (7 : Reg).val ∧ ((running 0 []).setReg 6 2).reg flagsReg = 2 ∧ ((running 0 []).setReg 6 4).reg flagsReg = 4 ∧
      (running 0 []).reg flagsReg ≠ 2 ∧ (running 0 []).reg flagsReg ≠ 4 := by decide

/-- The policy `wrap` with a sum above 255, and the policy `fault` with a sum of exactly 255. -/
theorem witness_AddIsTheSumModulo256 :
    (0 : Byte).toNat = (0 : Reg).val ∧ (running 0 []).config.overflow = .wrap ∧
      (faulting ((running 0 []).setReg 0 255)).config.overflow = .fault ∧
      ((faulting ((running 0 []).setReg 0 255)).reg 0).toNat + ((faulting ((running 0 []).setReg 0 255)).reg 1).toNat ≤ 255 := by
  decide

/-- The policy `wrap`, and the policy `fault` with a product of exactly 255. -/
theorem witness_MulIsTheProductModulo256 :
    (7 : Byte).toNat = (7 : Reg).val ∧ (running 0 []).config.overflow = .wrap ∧
      (faulting ((running 0 []).setReg 0 1)).config.overflow = .fault ∧
      ((faulting ((running 0 []).setReg 0 1)).reg 0).toNat * ((faulting ((running 0 []).setReg 0 1)).reg 7).toNat ≤ 255 := by decide

/-- Sums of 256 and 255 and products of 256 and 255 under `fault`; a record left over under `wrap`. -/
theorem witness_ArithmeticOverflowOnlyUnderFaultPolicy :
    255 < ((faulting ((running 0 []).setReg 0 1)).reg 0).toNat + ((faulting ((running 0 []).setReg 0 1)).reg 7).toNat ∧
      255 < ((faulting ((running 0 []).setReg 0 16)).reg 0).toNat * ((faulting ((running 0 []).setReg 0 16)).reg 0).toNat ∧
      ((faulting (running 0 [])).reg 0).toNat + ((faulting (running 0 [])).reg 7).toNat ≤ 255 ∧
      ((faulting (running 0 [])).reg 0).toNat * ((faulting (running 0 [])).reg 7).toNat ≤ 255 ∧
      (after { running 0 [0x47, 0x00] with faultRecord := some ⟨.arithmeticOverflow 300, 0⟩ }).map (·.faultRecord) =
        some (some ⟨.arithmeticOverflow 300, 0⟩) := by decide

theorem witness_CmpSetsTheFlags :
    (0 : Byte).toNat = (0 : Reg).val ∧ (running 0 []).reg 0 = (running 0 []).reg 1 ∧
      ((running 0 []).reg 0).toNat < ((running 0 []).reg 7).toNat := by decide

theorem witness_FlagComparatorGivesOneOfThreeCodes :
    (0 : Byte) = 0 ∧ (254 : Byte).toNat < (255 : Byte).toNat ∧ (0 : Byte).toNat < (1 : Byte).toNat := by decide

/-- Equal and unequal registers, the flags register of the compare's own next state. -/
theorem witness_CompareThenConditionalJump :
    (∃ t, exec (.cmp 0 1) (running 0 []) = .next t ∧ (running 0 []).reg 0 = (running 0 []).reg 1 ∧ t.reg flagsReg = t.reg flagsReg) ∧
      ∃ t, exec (.cmp 0 7) (running 0 []) = .next t ∧ (running 0 []).reg 0 ≠ (running 0 []).reg 7 ∧ t.reg flagsReg = t.reg flagsReg :=
  ⟨⟨_, rfl, by decide, rfl⟩, ⟨_, rfl, by decide, rfl⟩⟩

/-- R7 = 1, the least value a PUSH can decrement, with R7 itself and another register as the operand. -/
theorem witness_PushStoresBelowTheStackPointer :
    ((running 0 []).setReg 7 1).mem.wf ∧ 1 ≤ (((running 0 []).setReg 7 1).reg spReg).toNat ∧
      (7 : Byte).toNat = spReg.val ∧ (0 : Byte).toNat = (0 : Reg).val ∧ (0 : Reg) ≠ spReg := by decide

/-- R7 = 254, the greatest value a POP can increment; and a popped 254 into R7. -/
theorem witness_PopLoadsAtTheStackPointer :
    readMem ((poke (running 0 []) 254 9).setReg 7 254) ((poke (running 0 []) 254 9).setReg 7 254).spAddr = .ok 9 ∧
      (((poke (running 0 []) 254 9).setReg 7 254).reg spReg).toNat ≤ 254 ∧ (0 : Reg) ≠ spReg ∧
      readMem (poke (running 0 []) 255 254) (poke (running 0 []) 255 254).spAddr = .ok 254 ∧ (254 : Byte).toNat ≤ 254 := by decide

theorem witness_StackBoundsFault :
    (((running 0 []).setReg 7 0).reg spReg).toNat = 0 ∧ ((running 0 []).reg spReg).toNat = 255 ∧ (0 : Reg) ≠ spReg ∧
      readMem (poke (running 0 []) 255 255) (poke (running 0 []) 255 255).spAddr = .ok 255 ∧
      (internalRet (running 0 [])).config.retScratch = .internal ∧ (running 0 []).config.retScratch = .operandA ∧
      ((running 0 []).latch 0 7 0).opa.toNat = spReg.val := by decide

theorem witness_PushThenPopRoundTrip :
    ((running 0 []).setReg 7 1).mem.wf ∧ 1 ≤ (((running 0 []).setReg 7 1).reg spReg).toNat ∧ (0 : Reg) ≠ spReg ∧ (1 : Reg) ≠ 0 ∧
      (((running 0 []).setReg 0 254).reg 0).toNat ≤ 254 ∧ (((running 0 []).setReg 7 0).reg spReg).toNat = 0 := by decide

theorem witness_CallPushesTheReturnAddress :
    ((running 253 []).setReg 7 1).mem.wf ∧ ((running 253 []).setReg 7 1).pc.toNat ≤ 253 ∧
      1 ≤ (((running 253 []).setReg 7 1).reg spReg).toNat ∧ (7 : Byte).toNat = spReg.val ∧ (0 : Reg) ≠ spReg := by decide

theorem witness_RetPopsTheReturnAddress :
    readMem ((running 0 []).setReg 7 254) ((running 0 []).setReg 7 254).spAddr = .ok 0 ∧
      ((running 0 []).setReg 7 254).config.retScratch = .operandA ∧ ((running 0 []).setReg 7 254).opa.toNat = (0 : Reg).val ∧
      (((running 0 []).setReg 7 254).reg spReg).toNat ≤ 254 ∧ ((running 0 []).latch 0 7 0).opa.toNat = spReg.val ∧
      readMem (poke (running 0 []) 255 254) (poke (running 0 []) 255 254).spAddr = .ok 254 ∧
      (internalRet ((running 0 []).setReg 7 254)).config.retScratch = .internal := by decide

/-- A call at 253 returned from through R5, and a call at 252 returned from through R7. -/
theorem witness_CallThenRetReturns :
    (∃ u, exec (.call 0) (running 253 []) = .next u ∧ (u.latch 0 5 0).reg spReg = u.reg spReg ∧
      readMem (u.latch 0 5 0) (u.latch 0 5 0).spAddr = readMem u u.spAddr ∧ (u.latch 0 5 0).opa.toNat < 8 ∧
      (u.latch 0 5 0).opa.toNat ≠ spReg.val) ∧
    (∃ u, exec (.call 0) (running 252 []) = .next u ∧ (u.latch 0 7 0).opa.toNat = spReg.val ∧ (running 252 []).pc.toNat ≤ 252 ∧
      u.config.retScratch = .operandA) :=
  ⟨⟨_, rfl, rfl, rfl, by decide, by decide⟩, ⟨_, rfl, by decide, by decide, rfl⟩⟩

theorem witness_HaltOnlyByHltKeepingPc : ∃ t, exec .hlt (running 5 []) = .next t ∧ (running 5 []).runState = .run ∧ t.runState = .halted :=
  ⟨_, rfl, rfl, rfl⟩

theorem witness_IllegalRegisterOperandFaults :
    8 ≤ (8 : Byte).toNat ∧ (7 : Byte).toNat < 8 ∧ ((running 0 []).latch 0x11 8 0).opa = 8 ∧ (running 0 []).config.retScratch = .operandA := by
  decide

theorem witness_FaultEntryIsPrecise :
    ∃ t, step (running 256 []) = .next t ∧ t.runState = .faulted ∧ (running 256 []).pc.toNat ≤ 256 := ⟨_, rfl, rfl, by decide⟩

theorem witness_UnsupportedAluOperationIsUnreachable :
    ∃ t f, step (running 0 [0x00]) = .next t ∧ t.faultRecord = some f ∧ (running 0 [0x00]).faultRecord ≠ some f :=
  ⟨_, _, rfl, rfl, by decide⟩

theorem witness_FirstFaultInOrderIsReported :
    (running 254 [0xFF]).runState = .run ∧ 254 ≤ (running 254 [0xFF]).pc.toNat ∧ (running 254 [0xFF]).pc.toNat ≤ 256 ∧
      (running 253 [0xFF]).pc.toNat ≤ 253 ∧ 8 ≤ (9 : Byte).toNat ∧ (((running 0 []).setReg 7 0).reg spReg).toNat = 0 ∧
      ((running 0 []).reg spReg).toNat = 255 ∧ ((running 0 []).latch 0x11 8 0).opa = 8 ∧
      (faulting (running 0 [])).config.overflow = .fault ∧ (7 : Byte).toNat < 8 := by decide

theorem witness_OnlyNamedRegistersChange :
    ∃ t, exec (.ldi 3 9) (running 0 []) = .next t ∧ ¬mayWrite (running 0 []) 4 (.ldi 3 9) :=
  ⟨_, rfl, by simp [mayWrite]⟩

theorem witness_OnlyPushAndCallStore :
    ∃ t, exec (.ldi 3 9) (running 0 []) = .next t ∧ (running 0 []).mem.wf ∧ ∀ a, Instr.ldi 3 9 ≠ .push a ∧ Instr.ldi 3 9 ≠ .call a :=
  ⟨_, rfl, by decide, by simp⟩

theorem witness_OnlyPrnAppendsToTheOutput :
    (∃ t, step (running 0 [0x47, 0x07]) = .next t ∧ t.output = [255]) ∧
      (∃ t, step (running 0 [0x47, 0x08]) = .next t ∧ t.runState = .faulted) ∧
      (running 253 [0x47, 0x07]).runState = .run ∧ (running 253 [0x47, 0x07]).pc.toNat ≤ 253 ∧ (7 : Byte).toNat = spReg.val ∧
      decode (running 253 [0x47, 0x07]).config.opcodes
        [(running 253 [0x47, 0x07]).mem.read 253, (running 253 [0x47, 0x07]).mem.read 254, (running 253 [0x47, 0x07]).mem.read 255] =
          .ok (.prn 7, [0]) :=
  ⟨⟨_, rfl, by decide⟩, ⟨_, rfl, by decide⟩, by decide, by decide, by decide, by decide⟩

theorem witness_LatchesBetweenCyclesAreUnobservable : (∃ t, step (running 253 [0x01]) = .next t) ∧ (running 253 [0x01]).pc.toNat ≤ 253 :=
  ⟨⟨_, rfl⟩, by decide⟩

theorem witness_UnusedOperandBytesAreIgnored :
    ∃ t, exec .ret ((running 0 []).setReg 7 254) = .next t ∧ ((running 0 []).setReg 7 254).opa = ((running 0 []).setReg 7 254).opa :=
  ⟨_, rfl, rfl⟩

theorem witness_ConfigurationIsImmutable :
    (∃ t, exec .hlt (running 0 []) = .next t) ∧ (∃ t, step (running 0 [0x01]) = .next t) ∧ (∃ t, hostLoad State.reset 255 1 = .ok t) ∧
      ∃ t, hostRun State.reset = .ok t := ⟨⟨_, rfl⟩, ⟨_, rfl⟩, ⟨_, rfl⟩, ⟨_, rfl⟩⟩

theorem witness_MemoryReadsBackWhatWasWritten :
    (0 : Int) ≤ 0 ∧ (0 : Int) ≤ 255 ∧ State.reset.mem.wf ∧ (-1 : Int) < 0 ∧ (255 : Int) < 256 := by decide

/-- PUSH R0 at 10 with R7 = 13 stores at 12, the next opcode; with R7 = 12 it stores at 11, its own operand byte. -/
theorem witness_StoredByteIsFetchedByTheNextCycle :
    (∃ t, step ((running 10 [0x45, 0x00]).setReg 7 13) = .next t ∧ ((running 10 [0x45, 0x00]).setReg 7 13).spAddr - 1 = 10 + 2) ∧
      (∃ t, step ((running 10 [0x45, 0x00]).setReg 7 12) = .next t ∧ ((running 10 [0x45, 0x00]).setReg 7 12).spAddr - 1 = 10 + 1) ∧
      (running 10 [0x45, 0x00]).mem.wf ∧ (running 10 [0x45, 0x00]).config.opcodes.valid ∧ (running 10 [0x45, 0x00]).pc.toNat ≤ 251 ∧
      decode (running 10 [0x45, 0x00]).config.opcodes [0x45, 0x00, 0x00] = .ok (.push 0, [0]) ∧ (0 : Reg) ≠ spReg :=
  ⟨⟨_, rfl, by decide⟩, ⟨_, rfl, by decide⟩, by decide, by decide, by decide, by decide, by decide⟩

theorem witness_ResetValues : (0 : Reg) ≠ spReg ∧ (0 : Int) ≤ 255 := by decide

theorem witness_BootLoadsTheImageAndRuns :
    (List.replicate 256 (1 : Byte)).length ≤ 256 ∧ 256 < (List.replicate 257 (1 : Byte)).length :=
  ⟨by rw [List.length_replicate], by rw [List.length_replicate]; decide⟩

theorem witness_HostActionsOnlyInIdle :
    State.reset.runState = .idle ∧ (running 0 []).runState ≠ .idle ∧ State.reset.mem.wf ∧ (255 : Int) < 256 ∧ (-1 : Int) < 0 := by decide

theorem witness_ImageTextParsesToItsBytes :
    ∀ l ∈ [ImageLine.mk (some 0x82) (some "LDI".toList), ImageLine.mk none none], l.oneLine := by
  intro l hl
  simp only [List.mem_cons, List.not_mem_nil, or_false] at hl
  rcases hl with rfl | rfl <;> intro c hc <;> simp at hc
  subst hc
  decide

theorem witness_MalformedLineIsReportedBeforeExecution :
    '\n' ∉ "0000002".toList ∧ lineToken "0000002".toList ≠ [] ∧ ∀ b : Byte, lineToken "0000002".toList ≠ byteDigits b := by
  refine ⟨by decide, by decide, fun b h => ?_⟩
  have hlen := congrArg List.length h
  simp [byteDigits] at hlen
  exact absurd hlen (by decide)

end Sys2Proof.Tests
end

section
/-! PROOFS. The facts about one cycle that the whole-machine rules rest on: the width of what decodes, what a handler leaves to
the end of its cycle, and which step the fetched window gives. -/

namespace Sys2Proof

theorem Op.operandCount_le (o : Op) : o.operandCount ≤ 2 := by cases o <;> decide

/-- Under a valid map, what decodes is at most three bytes wide (30_encoding.md R60, R66 (b)). -/
theorem topBits_le_of_decode {m : OpcodeMap} {i : Instr} {b : Byte} {bs rest : List Byte} (hm : m.valid)
    (hd : decode m (b :: bs) = .ok (i, rest)) : topBits b ≤ 2 := by
  obtain ⟨opcode, tail, hb, hl, -⟩ := decode_ok hd
  obtain ⟨rfl, -⟩ := List.cons.inj hb
  rw [← lookup_some hl, topBits_byteOf hm]
  exact Op.operandCount_le _

end Sys2Proof

namespace Sys2Proof.Machine

variable {s t u : State} {i : Instr}

/-! ## What a handler leaves to the end of its cycle -/

/-- The state `u` that the handler of `i` leaves, before the end of the cycle: PC, the latches, the run-state, the fault record
and the configuration are those of `s`; memory has at most one byte written, at the decremented stack pointer; the output has
at most one element more, and that by a PRN. -/
structure HandlerKeeps (i : Instr) (s u : State) : Prop where
  pc : u.pc = s.pc
  rest : KeepsRest s u
  mem : u.mem = s.mem ∨ ∃ v, u.mem = s.mem.write (s.reg spReg - 1).toNat v
  output : u.output = s.output ∨ ∃ (a : Byte) (r : Reg), i = .prn a ∧ a.toNat = r.val ∧ u.output = s.output ++ [s.reg r]

theorem KeepsRest.refl (s : State) : KeepsRest s s := ⟨rfl, rfl, rfl, rfl, rfl, rfl⟩

theorem HandlerKeeps.refl (i : Instr) (s : State) : HandlerKeeps i s s := ⟨rfl, .refl s, .inl rfl, .inl rfl⟩

theorem HandlerKeeps.setReg (h : HandlerKeeps i s u) (r : Reg) (v : Byte) : HandlerKeeps i s (u.setReg r v) :=
  ⟨h.pc, { h.rest with }, h.mem, h.output⟩

theorem handlerKeeps_emit {a : Byte} {r : Reg} (h : a.toNat = r.val) : HandlerKeeps (.prn a) s (s.emit (s.reg r)) :=
  ⟨rfl, { KeepsRest.refl s with }, .inl rfl, .inr ⟨a, r, rfl, h, rfl⟩⟩

theorem handlerKeeps_push (i : Instr) (s : State) (p v : Byte) :
    HandlerKeeps i s ((s.setReg spReg p).setMem (s.mem.write (s.reg spReg - 1).toNat v)) :=
  ⟨rfl, { KeepsRest.refl s with }, .inr ⟨v, rfl⟩, .inl rfl⟩

/-- How the cycle of `i` ends on the state `u` that its handler left: the advance, a jump to an 8-bit target, or, for HLT, the
halt (40_cycle.md R84, R85, R86). -/
def EndsCycle (i : Instr) (u t : State) : Prop :=
  t = advance u ∨ (∃ v, t = u.setPc (pcTarget v)) ∨ (i = .hlt ∧ t = u.setRunState .halted)

/-- Every effect is that of a handler which keeps what `HandlerKeeps` lists, followed by the end of the cycle. -/
theorem effect_ends (h : Effect s t i) : ∃ u, HandlerKeeps i s u ∧ EndsCycle i u t := by
  have kept := HandlerKeeps.refl i s
  cases i with
  | ldi a imm =>
    obtain ⟨r, -, ht⟩ := h
    exact ⟨_, kept.setReg r imm, .inl ht⟩
  | prn a =>
    obtain ⟨r, hr, ht⟩ := h
    exact ⟨_, handlerKeeps_emit hr, .inl ht⟩
  | add a b =>
    obtain ⟨p, q, -, -, ht⟩ := h
    exact ⟨_, kept.setReg p _, .inl ht⟩
  | mul a b =>
    obtain ⟨p, q, -, -, ht⟩ := h
    exact ⟨_, kept.setReg p _, .inl ht⟩
  | push a =>
    obtain ⟨r, -, -, ht⟩ := h
    exact ⟨_, handlerKeeps_push _ s _ _, .inl ht⟩
  | pop a =>
    obtain ⟨r, v, -, -, -, ht⟩ := h
    exact ⟨_, (kept.setReg r v).setReg spReg _, .inl ht⟩
  | call a =>
    obtain ⟨r, -, -, ht⟩ := h
    exact ⟨_, handlerKeeps_push _ s _ _, .inr (.inl ⟨_, ht⟩)⟩
  | ret =>
    obtain ⟨v, -, ⟨-, r, -, -, ht⟩ | ⟨-, -, ht⟩⟩ := h
    · exact ⟨_, (kept.setReg r v).setReg spReg _, .inr (.inl ⟨v, ht⟩)⟩
    · exact ⟨_, kept.setReg spReg _, .inr (.inl ⟨v, ht⟩)⟩
  | jmp a =>
    obtain ⟨r, -, ht⟩ := h
    exact ⟨s, kept, .inr (.inl ⟨_, ht⟩)⟩
  | jeq a =>
    obtain ⟨r, -, ht⟩ := h
    split at ht
    · exact ⟨s, kept, .inr (.inl ⟨_, ht⟩)⟩
    · exact ⟨s, kept, .inl ht⟩
  | jne a =>
    obtain ⟨r, -, ht⟩ := h
    split at ht
    · exact ⟨s, kept, .inr (.inl ⟨_, ht⟩)⟩
    · exact ⟨s, kept, .inl ht⟩
  | cmp a b =>
    obtain ⟨p, q, -, -, ht⟩ := h
    exact ⟨_, kept.setReg flagsReg _, .inl ht⟩
  | hlt => exact ⟨s, kept, .inr (.inr ⟨rfl, h⟩)⟩

/-- The end of a cycle writes PC and the run-state only. -/
theorem EndsCycle.keeps (h : EndsCycle i u t) :
    t.mem = u.mem ∧ t.output = u.output ∧ t.faultRecord = u.faultRecord ∧ t.config = u.config := by
  rcases h with rfl | ⟨v, rfl⟩ | ⟨-, rfl⟩ <;> exact ⟨rfl, rfl, rfl, rfl⟩

theorem effect_config (h : Effect s t i) : t.config = s.config := by
  obtain ⟨u, kept, hend⟩ := effect_ends h
  obtain ⟨-, -, -, hc⟩ := hend.keeps
  exact hc.trans kept.rest.config

theorem effect_faultRecord (h : Effect s t i) : t.faultRecord = s.faultRecord := by
  obtain ⟨u, kept, hend⟩ := effect_ends h
  obtain ⟨-, -, hf, -⟩ := hend.keeps
  exact hf.trans kept.rest.faultRecord

theorem effect_mem (h : Effect s t i) :
    t.mem = s.mem ∨ ∃ v, t.mem = s.mem.write (s.reg spReg - 1).toNat v := by
  obtain ⟨u, kept, hend⟩ := effect_ends h
  obtain ⟨hm, -, -, -⟩ := hend.keeps
  exact hm ▸ kept.mem

theorem effect_output (h : Effect s t i) :
    t.output = s.output ∨ ∃ (a : Byte) (r : Reg), i = .prn a ∧ a.toNat = r.val ∧ t.output = s.output ++ [s.reg r] := by
  obtain ⟨u, kept, hend⟩ := effect_ends h
  obtain ⟨-, ho, -, -⟩ := hend.keeps
  exact ho ▸ kept.output

/-- An effect keeps the run-state, or is HLT's. -/
theorem effect_runState (h : Effect s t i) :
    t.runState = s.runState ∨ (i = .hlt ∧ t.runState = .halted ∧ t.pc = s.pc) := by
  obtain ⟨u, kept, rfl | ⟨v, rfl⟩ | ⟨hi, rfl⟩⟩ := effect_ends h
  · exact .inl kept.rest.runState
  · exact .inl kept.rest.runState
  · exact .inr ⟨hi, rfl, kept.pc⟩

/-- An effect advances PC, sets it to an 8-bit target, or keeps it. -/
theorem effect_pc (h : Effect s t i) : t.pc = (advance s).pc ∨ t.pc.toNat ≤ 255 ∨ t.pc = s.pc := by
  obtain ⟨u, kept, rfl | ⟨v, rfl⟩ | ⟨-, rfl⟩⟩ := effect_ends h
  · exact .inl (by rw [advance_pc, advance_pc, kept.pc, kept.rest.ir])
  · have := v.isLt
    exact .inr (.inl (by rw [setPc_pc, pcTarget_toNat]; omega))
  · exact .inr (.inr kept.pc)

theorem handlerFault_config (h : HandlerFault s t) : t.config = s.config := by
  obtain ⟨e, -, -, rfl⟩ := h
  rfl

theorem handlerFault_output (h : HandlerFault s t) : t.output = s.output := by
  obtain ⟨e, -, -, rfl⟩ := h
  rfl

theorem exec_config (h : exec i s = .next t) : t.config = s.config :=
  (exec_inv h).elim handlerFault_config effect_config

/-! ## Which step the fetched window gives -/

@[simp] theorem fetched_runState (s : State) : s.fetched.runState = s.runState := rfl
@[simp] theorem fetched_output (s : State) : s.fetched.output = s.output := rfl
@[simp] theorem fetched_config (s : State) : s.fetched.config = s.config := rfl

/-- A fetch that fails ends the cycle in the fault entry (40_cycle.md R82). -/
theorem step_of_fetch_error {e : ErrorKind} (hr : s.runState = .run) (hf : fetch s = .error e) :
    step s = .next (takeFault s e) := by
  simp only [step_run hr, beginCycle, hf]

/-- In RUN a step depends on the state through its fetch only, where the fetch succeeds (40_cycle.md R82 to R84). -/
theorem step_congr_fetch (hs : s.runState = .run) (ht : t.runState = .run) (hf : fetch s = .ok u) (hft : fetch t = .ok u) :
    step t = step s := by
  simp only [step_run hs, step_run ht, beginCycle, hf, hft]

/-- In RUN, where the bytes at PC decode to an instruction, the step is its meaning on the fetched state (40_cycle.md R88). -/
theorem step_of_decode {rest : List Byte} (hr : s.runState = .run) (hp : s.pc.toNat ≤ 253)
    (hd : decode s.config.opcodes
      [s.mem.read s.pc.toNat, s.mem.read (s.pc.toNat + 1), s.mem.read (s.pc.toNat + 2)] = .ok (i, rest)) :
    step s = exec i s.fetched := by
  have hd' : decode s.fetched.config.opcodes [s.fetched.ir, s.fetched.opa, s.fetched.opb] = .ok (i, rest) := hd
  simp only [step_run hr, beginCycle, fetch_in hp, hd']

/-- The fetch overwrites all three latches, so it does not read them (10_state.md R26, R27). -/
theorem fetch_refetched (s : State) (w : Byte × Byte × Byte) : fetch (s.refetched w) = fetch s := rfl

end Sys2Proof.Machine
end

section
/-! PROOFS. The invariant `State.Inv`: at reset, under a fault entry, under an instruction's effect, and so under every step. -/

namespace Sys2Proof.Machine

variable {s t : State} {i : Instr}

/-- The invariant holds at reset: memory is empty, PC is 0, and the run-state is IDLE with no record. -/
theorem reset_inv : State.reset.Inv where
  mem_wf := reset_mem_wf
  pc_le := by decide
  opcodes_valid := by decide
  record_iff := by decide
  record_legal f hf := absurd hf (by simp [State.reset])
  halted_pc := by decide

theorem State.Inv.latch (h : s.Inv) (ir opa opb : Byte) : (s.latch ir opa opb).Inv := { h with }

theorem State.Inv.fetched (h : s.Inv) : s.fetched.Inv := h.latch _ _ _

/-- Fault entry with a kind of the core keeps the invariant (60_exceptions.md R178). -/
theorem State.Inv.takeFault {e : ErrorKind} (h : s.Inv) (he : e.raisedInCore s.config) : (takeFault s e).Inv where
  mem_wf := h.mem_wf
  pc_le := h.pc_le
  opcodes_valid := h.opcodes_valid
  record_iff := by simp
  record_legal f hf := by
    obtain rfl : FaultRecord.mk e s.pc = f := by simpa using hf
    exact ⟨he, rfl⟩
  halted_pc hh := by simp at hh

/-- In RUN there is no fault record (10_state.md R29). -/
theorem State.Inv.no_record (h : s.Inv) (hr : s.runState = .run) : s.faultRecord = none := by
  have := h.record_iff
  simpa [hr] using this

/-- An instruction's effect keeps the invariant, from where an instruction can run: PC at most 253 and IR at most three bytes wide,
so that the advance ends at 256 at most (10_state.md R25). -/
theorem State.Inv.effect (h : s.Inv) (hr : s.runState = .run) (hp : s.pc.toNat ≤ 253) (hw : topBits s.ir ≤ 2)
    (he : Effect s t i) : t.Inv where
  mem_wf := by
    have := (s.reg spReg - 1).isLt
    rcases effect_mem he with hm | ⟨v, hm⟩
    · exact hm ▸ h.mem_wf
    · exact hm ▸ write_wf h.mem_wf (by omega) v
  pc_le := by
    rcases effect_pc he with hpc | hpc | hpc
    · rw [hpc, advance_toNat hp]
      omega
    · omega
    · exact hpc ▸ h.pc_le
  opcodes_valid := effect_config he ▸ h.opcodes_valid
  record_iff := by
    rw [effect_faultRecord he, h.no_record hr]
    rcases effect_runState he with hrs | ⟨-, hrs, -⟩ <;> simp [hrs, hr]
  record_legal f hf := by
    rw [effect_faultRecord he, h.no_record hr] at hf
    exact absurd hf (by simp)
  halted_pc hh := by
    rcases effect_runState he with hrs | ⟨-, -, hpc⟩
    · rw [hh, hr] at hrs
      exact absurd hrs (by simp)
    · exact hpc ▸ hp

/-- Every cycle keeps the invariant: the fetch fault, the unbound opcode, the handler's fault, and the instruction's effect. -/
theorem State.Inv.step (h : s.Inv) (hs : step s = .next t) : t.Inv := by
  obtain ⟨hr, ⟨hp, addr, hf, rfl⟩ | ⟨hp, hl, rfl⟩ | ⟨hp, i, rest, hd, hx⟩⟩ := step_inv hs
  · have haddr : addr = 256 := by simpa [fetch_out hp h.pc_le, eq_comm] using hf
    exact h.takeFault (.inr haddr)
  · exact h.fetched.takeFault hl
  · rcases exec_inv hx with ⟨e, he, -, rfl⟩ | he
    · exact h.fetched.takeFault he
    · exact h.fetched.effect hr hp (topBits_le_of_decode h.opcodes_valid hd) he

end Sys2Proof.Machine

open Sys2Proof Sys2Proof.Machine

/-- Settles O36, by the invariant's fields at the literal reset state. -/
theorem invariantAtReset : Obligations.InvariantAtReset := reset_inv

/-- Settles O37: by the ways a cycle can end, each of which keeps the invariant. -/
theorem invariantKeptByEveryStep : Obligations.InvariantKeptByEveryStep :=
  fun _ _ h hs => h.step hs
end

section
/-! PROOFS. What a step does to the output stream and to the configuration, and that it does not read the latches it finds. -/

namespace Sys2Proof.Machine

variable {s t : State} {i : Instr}

/-! ## The output -/

/-- PRN of a register (41_load_print.md R101). -/
theorem exec_prn_reg {a : Byte} {r : Reg} (h : a.toNat = r.val) : exec (.prn a) s = .next (advance (s.emit (s.reg r))) := by
  simp only [exec, execPrn, chkreg_reg r h, bind, Except.bind, complete]

/-- An instruction leaves the output as it was, or is a PRN that completes. -/
theorem exec_output (h : exec i s = .next t) :
    t.output = s.output ∨
      ∃ (a : Byte) (r : Reg), i = .prn a ∧ a.toNat = r.val ∧ t.output = s.output ++ [s.reg r] :=
  (exec_inv h).elim (fun hf => .inl (handlerFault_output hf)) effect_output

/-- A faulting cycle emits nothing: in a state that is not FAULTED before, no effect ends in FAULTED (60_exceptions.md R178). -/
theorem exec_output_of_faulted (h : exec i s = .next t) (hs : s.runState ≠ .faulted) (ht : t.runState = .faulted) :
    t.output = s.output := by
  rcases exec_inv h with hf | he
  · exact handlerFault_output hf
  · rcases effect_runState he with hrs | ⟨-, hrs, -⟩
    · exact absurd (hrs.symm.trans ht) hs
    · exact absurd (hrs.symm.trans ht) (by simp)

/-- A step appends to the output only where the bytes at PC decode to a PRN of a register, and then that register's value. -/
theorem step_output (h : step s = .next t) :
    t.output = s.output ∨
      ∃ (a : Byte) (r : Reg) (rest : List Byte), a.toNat = r.val ∧ t.output = s.output ++ [s.reg r] ∧
        decode s.config.opcodes
          [s.mem.read s.pc.toNat, s.mem.read (s.pc.toNat + 1), s.mem.read (s.pc.toNat + 2)] = .ok (.prn a, rest) := by
  obtain ⟨-, ⟨-, addr, -, rfl⟩ | ⟨-, -, rfl⟩ | ⟨-, i, rest, hd, hx⟩⟩ := step_inv h
  · exact .inl rfl
  · exact .inl rfl
  · rcases exec_output hx with ho | ⟨a, r, rfl, har, ho⟩
    · exact .inl ho
    · exact .inr ⟨a, r, rest, har, ho, hd⟩

theorem step_output_of_faulted (h : step s = .next t) (ht : t.runState = .faulted) : t.output = s.output := by
  obtain ⟨hr, ⟨-, addr, -, rfl⟩ | ⟨-, -, rfl⟩ | ⟨-, i, rest, -, hx⟩⟩ := step_inv h
  · rfl
  · rfl
  · have hrun : s.fetched.runState ≠ .faulted := by simp [hr]
    exact exec_output_of_faulted (s := s.fetched) hx hrun ht

/-! ## The configuration -/

theorem step_config (h : step s = .next t) : t.config = s.config := by
  obtain ⟨-, ⟨-, addr, -, rfl⟩ | ⟨-, -, rfl⟩ | ⟨-, i, rest, -, hx⟩⟩ := step_inv h
  · rfl
  · rfl
  · exact exec_config (s := s.fetched) hx

end Sys2Proof.Machine

open Sys2Proof Sys2Proof.Machine

/-- Settles O40: a cycle's output comes from its handler, and PRN's is the only one that emits. -/
theorem onlyPrnAppendsToTheOutput : Obligations.OnlyPrnAppendsToTheOutput := by
  refine ⟨rfl, fun s t h => ⟨step_output h, step_output_of_faulted h⟩, fun s a r rest hr hp har hd => ?_⟩
  exact ⟨_, (step_of_decode hr hp hd).trans (exec_prn_reg har), rfl⟩

/-- Settles O41: the fetch, the first thing a cycle does, overwrites the latches; where it fails, the fault entry keeps them. -/
theorem latchesBetweenCyclesAreUnobservable : Obligations.LatchesBetweenCyclesAreUnobservable := by
  intro s t w h
  obtain ⟨hr, ⟨e, hf, rfl⟩ | hfetched⟩ := step_cases h
  · refine ⟨takeFault (s.refetched w) e, step_of_fetch_error hr hf, rfl, rfl, rfl, rfl, rfl, rfl, rfl, fun hp => ?_⟩
    exact absurd (hf.symm.trans (fetch_in hp)) (by simp)
  · obtain ⟨u, hu⟩ : ∃ u, fetch s = .ok u := by
      rcases hfetched with ⟨u, _, hu, -⟩ | ⟨u, _, _, hu, -⟩ <;> exact ⟨u, hu⟩
    have hstep : step (s.refetched w) = step s := step_congr_fetch hr hr hu ((fetch_refetched s w).trans hu)
    exact ⟨t, hstep.trans h, rfl, rfl, rfl, rfl, rfl, rfl, rfl, fun _ => rfl⟩
end

section
/-! PROOFS. The host's actions reset, load and run, one lemma per action and case; the statements that speak of them. -/

namespace Sys2Proof.Machine

variable {s t : State}

/-! ## Reset -/

@[simp] theorem hostReset_reg (s : State) (q : Reg) : (hostReset s).reg q = State.reset.reg q := rfl
@[simp] theorem hostReset_readMem (s : State) (addr : Int) : readMem (hostReset s) addr = readMem State.reset addr := rfl
@[simp] theorem hostReset_config (s : State) : (hostReset s).config = s.config := rfl

/-- All memory reads 0 at reset (10_state.md R33). -/
theorem reset_readMem {addr : Int} (h0 : 0 ≤ addr) (h1 : addr ≤ 255) : readMem State.reset addr = .ok 0 := readMem_in h0 h1

/-! ## Load and run -/

theorem hostLoad_not_idle (h : s.runState ≠ .idle) (addr : Int) (b : Byte) : hostLoad s addr b = .error (.notIdle s.runState) :=
  if_neg h

theorem hostLoad_idle (h : s.runState = .idle) (addr : Int) (b : Byte) :
    hostLoad s addr b = (writeMem s addr b).mapError .rejected := by
  rw [hostLoad, if_pos h]
  cases writeMem s addr b <;> rfl

theorem hostLoad_in {addr : Int} (h : s.runState = .idle) (h0 : 0 ≤ addr) (h1 : addr ≤ 255) (b : Byte) :
    hostLoad s addr b = .ok (s.setMem (s.mem.write addr.toNat b)) := by
  rw [hostLoad_idle h, writeMem_in h0 h1]
  rfl

theorem hostLoad_out {addr : Int} (h : s.runState = .idle) (ha : ¬(0 ≤ addr ∧ addr ≤ 255)) (b : Byte) :
    hostLoad s addr b = .error (.rejected (.memoryOutOfBounds addr)) := by
  rw [hostLoad_idle h, writeMem_out ha]
  rfl

/-- A load that is accepted changes memory only. -/
theorem hostLoad_ok {addr : Int} {b : Byte} (h : hostLoad s addr b = .ok t) : t = s.setMem (s.mem.write addr.toNat b) := by
  by_cases hi : s.runState = .idle
  · by_cases ha : 0 ≤ addr ∧ addr ≤ 255
    · simpa [hostLoad_in hi ha.1 ha.2, eq_comm] using h
    · simp [hostLoad_out hi ha] at h
  · simp [hostLoad_not_idle hi] at h

theorem hostRun_not_idle (h : s.runState ≠ .idle) : hostRun s = .error (.notIdle s.runState) := if_neg h

theorem hostRun_idle (h : s.runState = .idle) : hostRun s = .ok (s.setRunState .run) := if_pos h

/-- A `run` that is accepted changes the run-state only. -/
theorem hostRun_ok (h : hostRun s = .ok t) : t = s.setRunState .run := by
  by_cases hi : s.runState = .idle
  · simpa [hostRun_idle hi, eq_comm] using h
  · simp [hostRun_not_idle hi] at h

/-- A store inside 0..255 is read back at its address. -/
theorem readMem_setMem_same (hm : s.mem.wf) {addr : Int} (h0 : 0 ≤ addr) (h1 : addr ≤ 255) (v : Byte) :
    readMem (s.setMem (s.mem.write addr.toNat v)) addr = .ok v := by
  rw [readMem_setMem_write hm v addr h0 h1, if_pos rfl]

/-- A store inside 0..255 leaves every other address alone, those outside memory included (20_memory.md R42). -/
theorem keepsMemoryExcept_setMem (hm : s.mem.wf) {addr : Int} (h0 : 0 ≤ addr) (v : Byte) :
    KeepsMemoryExcept addr s (s.setMem (s.mem.write addr.toNat v)) := by
  intro k hk
  by_cases hb : 0 ≤ k ∧ k ≤ 255
  · have hne : k.toNat ≠ addr.toNat := by omega
    rw [readMem_setMem_write hm v k hb.1 hb.2, if_neg hne, readMem_in hb.1 hb.2]
  · rw [readMem_out hb, readMem_out hb]

end Sys2Proof.Machine

open Sys2Proof Sys2Proof.Machine

/-- Settles O43: from what each of the five leaves unchanged. -/
theorem configurationIsImmutable : Obligations.ConfigurationIsImmutable := by
  refine ⟨fun _ _ _ => exec_config, fun _ _ => step_config, fun s t addr b h => ?_, fun s t h => ?_, hostReset_config⟩
  · rw [hostLoad_ok h, setMem_config]
  · rw [hostRun_ok h, setRunState_config]

/-- Settles O46: the host's reset reads as `State.reset`, whose values are those of R33. -/
theorem resetValues : Obligations.ResetValues := by
  intro s
  refine ⟨fun r hr => ?_, by simp, by simp, rfl, rfl, fun addr h0 h1 => ?_, rfl, rfl, rfl, rfl, rfl, rfl⟩
  · simp [hr]
  · simp [reset_readMem h0 h1]

/-- Settles O48: each action by its refused and its accepted cases. -/
theorem hostActionsOnlyInIdle : Obligations.HostActionsOnlyInIdle := by
  intro s addr b
  refine ⟨fun h => ⟨hostLoad_not_idle h addr b, hostRun_not_idle h⟩, fun h ha => hostLoad_out h (by omega) b,
    fun h h0 h1 hm => ?_, fun h => ?_⟩
  · exact ⟨_, hostLoad_in h h0 h1 b, readMem_setMem_same hm h0 h1 b, keepsMemoryExcept_setMem hm h0 b, fun _ _ => rfl, rfl, rfl,
      { KeepsRest.refl s with }⟩
  · exact ⟨_, hostRun_idle h, rfl, fun _ => rfl, fun _ _ => rfl, rfl, rfl, rfl, rfl⟩
end

section
/-! PROOFS. Memory: what a store and a plain access do to it, which instructions store and where, and that the fetch of the next
cycle reads a stored byte from memory itself. -/

namespace Sys2Proof

variable {m : OpcodeMap} {i : Instr} {b : Byte} {bs rest : List Byte}

/-- The opcode that decodes is bound to the instruction's mnemonic, and the operand bytes follow it (30_encoding.md R61, R62). -/
theorem decode_cons_ok (hd : decode m (b :: bs) = .ok (i, rest)) : m.lookup b = some i.op ∧ i.operandBytes ++ rest = bs := by
  obtain ⟨opcode, tail, hb, hl, hbytes⟩ := decode_ok hd
  obtain ⟨rfl, rfl⟩ := List.cons.inj hb
  exact ⟨hl, hbytes⟩

/-- Under a valid map, bits 7:6 of an opcode that decodes are the instruction's operand count (30_encoding.md R66 (b)). -/
theorem topBits_of_decode (hm : m.valid) (hd : decode m (b :: bs) = .ok (i, rest)) : topBits b = i.op.operandCount := by
  rw [← lookup_some (decode_cons_ok hd).1, topBits_byteOf hm]

end Sys2Proof

namespace Sys2Proof.Machine

variable {s t : State} {i : Instr}

/-! ## Reads and the memory they read -/

/-- A read depends on the state through its memory only (20_memory.md R41). -/
theorem keepsMemory_of_mem_eq (h : t.mem = s.mem) : KeepsMemory s t := fun addr => by
  simp only [readMem, h]

/-- A state whose memory is `s`'s with one byte stored inside 0..255 reads as `s` does at every other address. -/
theorem keepsMemoryExcept_of_mem_write (hm : s.mem.wf) {addr : Int} (h0 : 0 ≤ addr) {v : Byte}
    (h : t.mem = s.mem.write addr.toNat v) : KeepsMemoryExcept addr s t := fun k hk =>
  calc readMem t k = readMem (s.setMem (s.mem.write addr.toNat v)) k := keepsMemory_of_mem_eq h k
    _ = readMem s k := keepsMemoryExcept_setMem hm h0 v k hk

/-! ## Which instructions store, and where -/

/-- Above 0, the decremented stack pointer is the address below the one it held (43_stack.md R121). -/
theorem decremented_spReg_toNat (h : 1 ≤ (s.reg spReg).toNat) : (s.reg spReg - 1).toNat = (s.spAddr - 1).toNat := by
  rw [decremented_toNat h, State.spAddr]
  omega

/-- An effect leaves memory as it was, or is a PUSH's or a CALL's, which stores one byte below the stack pointer
(20_memory.md R43). -/
theorem effect_mem_cases (h : Effect s t i) :
    t.mem = s.mem ∨ ((∃ a, i = .push a ∨ i = .call a) ∧ 1 ≤ (s.reg spReg).toNat ∧
      ∃ v, t.mem = s.mem.write (s.spAddr - 1).toNat v) := by
  cases i with
  | ldi a imm =>
    obtain ⟨r, -, rfl⟩ := h
    exact .inl rfl
  | prn a =>
    obtain ⟨r, -, rfl⟩ := h
    exact .inl rfl
  | add a b =>
    obtain ⟨p, q, -, -, rfl⟩ := h
    exact .inl rfl
  | mul a b =>
    obtain ⟨p, q, -, -, rfl⟩ := h
    exact .inl rfl
  | push a =>
    obtain ⟨r, -, h1, rfl⟩ := h
    exact .inr ⟨⟨a, .inl rfl⟩, h1, _, by rw [← decremented_spReg_toNat h1]; rfl⟩
  | pop a =>
    obtain ⟨r, v, -, -, -, rfl⟩ := h
    exact .inl rfl
  | call a =>
    obtain ⟨r, -, h1, rfl⟩ := h
    exact .inr ⟨⟨a, .inr rfl⟩, h1, _, by rw [← decremented_spReg_toNat h1]; rfl⟩
  | ret =>
    obtain ⟨v, -, ⟨-, r, -, -, rfl⟩ | ⟨-, -, rfl⟩⟩ := h <;> exact .inl rfl
  | jmp a =>
    obtain ⟨r, -, rfl⟩ := h
    exact .inl rfl
  | jeq a =>
    obtain ⟨r, -, rfl⟩ := h
    left
    split <;> rfl
  | jne a =>
    obtain ⟨r, -, rfl⟩ := h
    left
    split <;> rfl
  | cmp a b =>
    obtain ⟨p, q, -, -, rfl⟩ := h
    exact .inl rfl
  | hlt =>
    obtain rfl := h
    exact .inl rfl

theorem handlerFault_mem (h : HandlerFault s t) : t.mem = s.mem := by
  obtain ⟨e, -, -, rfl⟩ := h
  rfl

/-- An instruction leaves memory as it was, or is a PUSH or a CALL that completes. -/
theorem exec_mem_cases (h : exec i s = .next t) :
    t.mem = s.mem ∨ ((∃ a, i = .push a ∨ i = .call a) ∧ 1 ≤ (s.reg spReg).toNat ∧
      ∃ v, t.mem = s.mem.write (s.spAddr - 1).toNat v) :=
  (exec_inv h).elim (fun hf => .inl (handlerFault_mem hf)) effect_mem_cases

/-- Every instruction keeps every byte of memory but the one below the stack pointer. -/
theorem exec_keepsMemoryExcept (hm : s.mem.wf) (h : exec i s = .next t) : KeepsMemoryExcept (s.spAddr - 1) s t := by
  rcases exec_mem_cases h with hmem | ⟨-, h1, v, hmem⟩
  · exact fun k _ => keepsMemory_of_mem_eq hmem k
  · exact keepsMemoryExcept_of_mem_write hm (by rw [State.spAddr]; omega) hmem

/-! ## PUSH -/

/-- PUSH of a register that is not R7, above a stack pointer of 0 (43_stack.md R121). -/
theorem exec_push_reg {a : Byte} {r : Reg} (har : a.toNat = r.val) (hr : r ≠ spReg) (h1 : 1 ≤ (s.reg spReg).toNat) :
    exec (.push a) s = .next (advance ((s.setReg spReg (s.reg spReg - 1)).setMem
      (s.mem.write (s.spAddr - 1).toNat (s.reg r)))) := by
  simp only [exec, execPush, chkreg_reg r har, decSp_ok h1, writeMem_spAddr, bind, Except.bind, complete, setReg_mem,
    setReg_reg_same, setReg_reg_other _ _ hr, decremented_spReg_toNat h1]

/-- A cycle that runs a PUSH of a register that is not R7, above a stack pointer of 0: the byte is stored below the stack pointer,
PC goes two bytes on, and OPA is the operand byte that the cycle fetched (40_cycle.md R82, R85; 43_stack.md R121). -/
theorem step_push_reg {a : Byte} {r : Reg} {rest : List Byte} (hrun : s.runState = .run) (hv : s.config.opcodes.valid)
    (hp : s.pc.toNat ≤ 253)
    (hd : decode s.config.opcodes
      [s.mem.read s.pc.toNat, s.mem.read (s.pc.toNat + 1), s.mem.read (s.pc.toNat + 2)] = .ok (.push a, rest))
    (har : a.toNat = r.val) (hr : r ≠ spReg) (h1 : 1 ≤ (s.reg spReg).toNat) (h : step s = .next t) :
    t.mem = s.mem.write (s.spAddr - 1).toNat (s.reg r) ∧ t.pc.toNat = s.pc.toNat + 2 ∧ t.opa = a := by
  have hexec : step s = _ := (step_of_decode hrun hp hd).trans (exec_push_reg (s := s.fetched) har hr h1)
  obtain rfl := Host.Outcome.next.inj (hexec.symm.trans h)
  have hwidth : topBits (s.mem.read s.pc.toNat) = 1 := topBits_of_decode hv hd
  refine ⟨rfl, ?_, (List.cons.inj (decode_cons_ok hd).2).1.symm⟩
  rw [advance_toNat (by exact hp)]
  exact congrArg (s.pc.toNat + 1 + ·) hwidth

end Sys2Proof.Machine

open Sys2Proof Sys2Proof.Machine

/-- Settles O39: a fault entry keeps memory, and of the effects only PUSH's and CALL's store, at the decremented stack pointer. -/
theorem onlyPushAndCallStore : Obligations.OnlyPushAndCallStore := by
  intro i s t hm h
  refine ⟨fun hi => ?_, exec_keepsMemoryExcept hm h⟩
  have hmem : t.mem = s.mem := by
    rcases exec_mem_cases h with hmem | ⟨⟨a, rfl | rfl⟩, -⟩
    · exact hmem
    · exact absurd rfl (hi a).1
    · exact absurd rfl (hi a).2
  exact ⟨hmem, keepsMemory_of_mem_eq hmem⟩

/-- Settles O45: the PUSH advances PC by 2, and the next fetch reads the memory that the PUSH left; its own operand latch was
written before the handler ran. -/
theorem storedByteIsFetchedByTheNextCycle : Obligations.StoredByteIsFetchedByTheNextCycle := by
  intro s t a rest r hrun hm hv hp hd har hr h1 hstep
  obtain ⟨hmem, hpc, hopa⟩ := step_push_reg hrun hv (by omega) hd har hr h1 hstep
  refine ⟨fun hnext => ⟨t.fetched, fetch_in (by omega), ?_⟩, fun hown => ⟨?_, hopa⟩⟩
  · have haddr : t.pc.toNat = (s.spAddr - 1).toNat := by omega
    calc t.mem.read t.pc.toNat = (s.mem.write (s.spAddr - 1).toNat (s.reg r)).read (s.spAddr - 1).toNat := by rw [hmem, haddr]
      _ = s.reg r := by rw [read_write hm, if_pos rfl]
  · calc readMem t (s.spAddr - 1) = readMem (s.setMem (s.mem.write (s.spAddr - 1).toNat (s.reg r))) (s.spAddr - 1) :=
        keepsMemory_of_mem_eq hmem _
      _ = .ok (s.reg r) := readMem_setMem_same hm (by omega) (by omega) _

/-- Settles O44: `MemRead` and `MemWrite` by their two cases, inside and outside 0..255. -/
theorem memoryReadsBackWhatWasWritten : Obligations.MemoryReadsBackWhatWasWritten := by
  intro s addr v
  refine ⟨fun h0 h1 hm => ?_, fun h => ⟨readMem_out (by omega), writeMem_out (by omega)⟩⟩
  exact ⟨_, writeMem_in h0 h1, write_wf hm (by omega) v, readMem_setMem_same hm h0 h1 v, keepsMemoryExcept_setMem hm h0 v,
    fun _ _ => rfl, rfl, rfl, { KeepsRest.refl s with }⟩
end

section
/-! PROOFS. Encoding: the lookup of a bound byte, the decoder against the encoder in both directions, the width, and the bytes that
no map binds (30_encoding.md). -/

namespace Sys2Proof

variable {m : OpcodeMap} {b : Byte} {bs : List Byte}

/-- The operand bytes of every instruction fit its mnemonic's format. -/
theorem operandBytes_statement (i : Instr) : Laws.OperandBytes.Statement i := by
  cases i with
  | ldi a imm => exact Laws.OperandBytes.ldi a imm
  | prn a => exact Laws.OperandBytes.prn a
  | add a b => exact Laws.OperandBytes.add a b
  | mul a b => exact Laws.OperandBytes.mul a b
  | push a => exact Laws.OperandBytes.push a
  | pop a => exact Laws.OperandBytes.pop a
  | call a => exact Laws.OperandBytes.call a
  | ret => exact Laws.OperandBytes.ret
  | jmp a => exact Laws.OperandBytes.jmp a
  | jeq a => exact Laws.OperandBytes.jeq a
  | jne a => exact Laws.OperandBytes.jne a
  | cmp a b => exact Laws.OperandBytes.cmp a b
  | hlt => exact Laws.OperandBytes.hlt

/-- A map with distinct values binds no byte twice (30_encoding.md R66 (a)). -/
theorem byteOf_injective (hm : m.valid) : Function.Injective m.byteOf := fun o p h =>
  List.inj_on_of_nodup_map hm.1 o.mem_all p.mem_all h

/-- The lookup of a mnemonic's byte finds the mnemonic (30_encoding.md R62, R66 (a)). -/
theorem lookup_byteOf (hm : m.valid) (o : Op) : m.lookup (m.byteOf o) = some o := by
  cases h : m.lookup (m.byteOf o) with
  | none => exact absurd rfl (lookup_none.1 h o)
  | some p => exact congrArg some (byteOf_injective hm (lookup_some h))

/-- An unbound byte is refused by name (30_encoding.md R67). -/
theorem decode_unbound (h : m.lookup b = none) (bs : List Byte) : decode m (b :: bs) = .error (.unboundOpcode b) := by
  simp only [decode, h]

/-- Under a valid map an instruction has as many bytes as bits 7:6 of its opcode say, and one (30_encoding.md R60, R66 (b)). -/
theorem encode_length (hm : m.valid) (i : Instr) : (encode m i).length = widthOf (m.byteOf i.op) := by
  rw [encode, List.length_cons, (operandBytes_statement i).1, widthOf, topBits_byteOf hm, Nat.add_comm]

/-- Under a valid map no byte with bits 7:6 = 11 is bound (30_encoding.md R60, R66 (b)). -/
theorem lookup_of_topBits_eq_three (hm : m.valid) (h : topBits b = 3) : m.lookup b = none :=
  lookup_none.2 fun o ho => by
    have hcount : o.operandCount = 3 := by rw [← topBits_byteOf hm, ho, h]
    have := o.operandCount_le
    omega

/-- The byte values that a valid map binds, from the lowest on, are its thirteen values (30_encoding.md R66 (a), R67). -/
theorem boundValues_perm (hm : m.valid) :
    ((List.range 256).filter fun k => (m.lookup (BitVec.ofNat 8 k)).isSome).Perm (Op.all.map fun o => (m.byteOf o).toNat) := by
  have hnodup : (Op.all.map fun o => (m.byteOf o).toNat).Nodup := by
    simpa [Function.comp_def] using hm.1.map BitVec.toNat_injective
  refine (List.perm_ext_iff_of_nodup (List.nodup_range.filter _) hnodup).2 fun k => ?_
  simp only [List.mem_filter, List.mem_range, List.mem_map, Option.isSome_iff_exists]
  constructor
  · rintro ⟨hk, o, ho⟩
    exact ⟨o, o.mem_all, by rw [lookup_some ho, BitVec.toNat_ofNat, Nat.mod_eq_of_lt hk]⟩
  · rintro ⟨o, -, rfl⟩
    exact ⟨(m.byteOf o).isLt, o, by rw [BitVec.ofNat_toNat, BitVec.setWidth_eq, lookup_byteOf hm]⟩

/-- Every valid map leaves 243 byte values unbound (30_encoding.md R67). -/
theorem unbound_count (hm : m.valid) :
    ((List.range 256).filter fun k => (m.lookup (BitVec.ofNat 8 k)).isNone).length = 243 := by
  have hbound := (boundValues_perm hm).length_eq
  have hsplit := List.length_eq_length_filter_add (l := List.range 256) fun k => (m.lookup (BitVec.ofNat 8 k)).isSome
  simp only [Option.not_isSome, List.length_range, hbound, List.length_map] at hsplit
  have : Op.all.length = 13 := rfl
  omega

end Sys2Proof

open Sys2Proof Sys2Proof.Machine

/-- Settles O1: the lookup finds the mnemonic of its own byte, and the operands taken are the instruction's. -/
theorem decodeOfEncodeIsTheInstruction : Obligations.DecodeOfEncodeIsTheInstruction := by
  intro m i rest hm
  simp only [encode, List.cons_append, decode, lookup_byteOf hm, (operandBytes_statement i).2 rest]

/-- Settles O2: what decodes starts with the byte bound to its mnemonic, and its operand bytes follow. -/
theorem decodedBytesAreTheEncoding : Obligations.DecodedBytesAreTheEncoding := by
  intro m bs rest i h
  obtain ⟨opcode, tail, rfl, hl, hbytes⟩ := decode_ok h
  rw [encode, lookup_some hl, List.cons_append, hbytes]

/-- Settles O3: bits 7:6 of a bound opcode are its operand count, which is at most 2. -/
theorem widthIsOnePlusTopBits : Obligations.WidthIsOnePlusTopBits := by
  intro m i hm
  have hlen := encode_length hm i
  refine ⟨hlen, ?_, fun b => lookup_of_topBits_eq_three hm, advance_advances⟩
  have := i.op.operandCount_le
  rw [widthOf, topBits_byteOf hm] at hlen
  omega

/-- Settles O5: an unbound byte is refused at the lookup, a byte from 0xC0 on has bits 7:6 = 11, and the default map is valid,
so that it binds thirteen values. -/
theorem unboundOpcodeBytesAreRefused : Obligations.UnboundOpcodeBytesAreRefused := by
  refine ⟨fun m b rest h => decode_unbound (lookup_none.2 h) rest, fun m b rest hm hb => ?_, unbound_count (by decide), by decide⟩
  have htop : topBits b = 3 := by
    have := b.isLt
    rw [topBits_eq]
    omega
  exact decode_unbound (lookup_of_topBits_eq_three hm htop) rest

/-- Settles O4, by decoding each of the thirteen words. -/
theorem tableWordsDecode : Obligations.TableWordsDecode := by
  unfold Obligations.TableWordsDecode
  decide
end

section
/-! PROOFS. What an instruction's operands reach: the registers that it may write (30_encoding.md R63), and the latches that no
handler reads but RET (92_eei_decisions.md D20). -/

namespace Sys2Proof.Machine

variable {s t : State} {i : Instr} {q : Reg}

/-! ## The registers written -/

/-- An operand byte that does not name `q` names another register. -/
theorem ne_of_operand {a : Byte} {r : Reg} (ha : a.toNat = r.val) (hq : ¬a.toNat = q.val) : q ≠ r := by
  rintro rfl
  exact hq ha

/-- An effect keeps every register that its instruction may not write. -/
theorem effect_reg (h : Effect s t i) (hq : ¬mayWrite s q i) : t.reg q = s.reg q := by
  cases i with
  | ldi a imm =>
    obtain ⟨r, ha, rfl⟩ := h
    exact setReg_reg_other s imm (ne_of_operand ha hq)
  | prn a =>
    obtain ⟨r, -, rfl⟩ := h
    rfl
  | add a b =>
    obtain ⟨p, -, ha, -, rfl⟩ := h
    exact setReg_reg_other s _ (ne_of_operand ha hq)
  | mul a b =>
    obtain ⟨p, -, ha, -, rfl⟩ := h
    exact setReg_reg_other s _ (ne_of_operand ha hq)
  | push a =>
    obtain ⟨r, -, -, rfl⟩ := h
    exact setReg_reg_other s _ hq
  | pop a =>
    obtain ⟨r, v, ha, -, -, rfl⟩ := h
    obtain ⟨hqa, hsp⟩ := not_or.1 hq
    rw [advance_reg, setReg_reg_other _ _ hsp, setReg_reg_other _ _ (ne_of_operand ha hqa)]
  | call a =>
    obtain ⟨r, -, -, rfl⟩ := h
    exact setReg_reg_other s _ hq
  | ret =>
    obtain ⟨hsp, hscratch⟩ := not_or.1 hq
    obtain ⟨v, -, ⟨hc, r, ha, -, rfl⟩ | ⟨-, -, rfl⟩⟩ := h
    · rw [setPc_reg, setReg_reg_other _ _ hsp, setReg_reg_other _ _ (ne_of_operand ha fun hqa => hscratch ⟨hc, hqa⟩)]
    · exact setReg_reg_other s _ hsp
  | jmp a =>
    obtain ⟨r, -, rfl⟩ := h
    rfl
  | jeq a =>
    obtain ⟨r, -, rfl⟩ := h
    split <;> rfl
  | jne a =>
    obtain ⟨r, -, rfl⟩ := h
    split <;> rfl
  | cmp a b =>
    obtain ⟨p, r, -, -, rfl⟩ := h
    exact setReg_reg_other s _ hq
  | hlt =>
    obtain rfl := h
    rfl

theorem handlerFault_reg (h : HandlerFault s t) (q : Reg) : t.reg q = s.reg q := by
  obtain ⟨e, -, -, rfl⟩ := h
  rfl

/-! ## The operand latches -/

/-- The state with other bytes in the operand latches. -/
def State.setOperands (s : State) (opa opb : Byte) : State := s.latch s.ir opa opb

variable (opa opb : Byte)

/-- A handler's result with other bytes in the operand latches of the state it leaves. -/
def Handled.setOperands (o : Handled) : Handled := o.map fun p => (p.1.setOperands opa opb, p.2)

/-- The end of a cycle does not read the operand latches (40_cycle.md R85, R86, R88). -/
theorem complete_setOperands {o o' : Handled} (ho : o' = Handled.setOperands opa opb o) (h : complete s o = .next t) :
    complete (s.setOperands opa opb) o' = .next (t.setOperands opa opb) := by
  subst ho
  rcases complete_cases h with ⟨e, rfl, rfl⟩ | ⟨u, rfl, rfl⟩ | rfl | ⟨u, rfl, rfl⟩ <;> rfl

/-- Relabelling the result of a sequence: the first part commutes by `k`, and what follows takes the relabelled value to the
relabelled result. -/
theorem bind_eq_map_bind {ε α β : Type} {x x' : Except ε α} {f f' : α → Except ε β} {k : α → α} {g : β → β}
    (hx : x' = x.map k) (hf : ∀ a, f' (k a) = (f a).map g) : (x' >>= f') = (x >>= f).map g := by
  subst hx
  cases x with
  | error e => rfl
  | ok a => exact hf a

/-- The same where the first part does not change: a check of an operand byte, a read of memory. -/
theorem bind_eq_map_bind_same {ε α β : Type} (x : Except ε α) {f f' : α → Except ε β} {g : β → β}
    (hf : ∀ a, f' a = (f a).map g) : (x >>= f') = (x >>= f).map g := by
  cases x with
  | error e => rfl
  | ok a => exact hf a

theorem decSp_setOperands (s : State) :
    decSp (s.setOperands opa opb) = (decSp s).map (·.setOperands opa opb) := by
  unfold decSp State.setOperands
  rw [latch_spAddr]
  split <;> rfl

theorem incSp_setOperands (s : State) :
    incSp (s.setOperands opa opb) = (incSp s).map (·.setOperands opa opb) := by
  unfold incSp State.setOperands
  rw [latch_spAddr]
  split <;> rfl

theorem writeMem_setOperands (s : State) (addr : Int) (v : Byte) :
    writeMem (s.setOperands opa opb) addr v = (writeMem s addr v).map (·.setOperands opa opb) := by
  unfold writeMem
  split <;> rfl

theorem narrowInto_setOperands (s : State) (r : Reg) (n : Nat) :
    narrowInto (s.setOperands opa opb) r n = (narrowInto s r n).map (·.setOperands opa opb) := by
  unfold narrowInto State.setOperands
  rw [latch_config]
  split <;> rfl

theorem alu_setOperands (tag : AluTag) (a b : Reg) (s : State) :
    alu tag a b (s.setOperands opa opb) = (alu tag a b s).map (·.setOperands opa opb) := by
  cases tag with
  | add => exact narrowInto_setOperands opa opb s a _
  | mul => exact narrowInto_setOperands opa opb s a _
  | cmp => rfl
  | other t => rfl

theorem popInto_setOperands (s : State) (r : Reg) :
    popInto (s.setOperands opa opb) r = (popInto s r).map fun p => (p.1.setOperands opa opb, p.2) :=
  bind_eq_map_bind_same (readMem s s.spAddr) fun v =>
    bind_eq_map_bind (incSp_setOperands opa opb (s.setReg r v)) fun _ => rfl

theorem aluHandler_setOperands (tag : AluTag) (a b : Byte) (s : State) :
    aluHandler tag a b (s.setOperands opa opb) = Handled.setOperands opa opb (aluHandler tag a b s) :=
  bind_eq_map_bind_same (chkreg a) fun ra => bind_eq_map_bind_same (chkreg b) fun rb =>
    bind_eq_map_bind (alu_setOperands opa opb tag ra rb s) fun _ => rfl

theorem jumpWhen_setOperands (taken : Bool) (a : Byte) (s : State) :
    jumpWhen taken a (s.setOperands opa opb) = Handled.setOperands opa opb (jumpWhen taken a s) :=
  bind_eq_map_bind_same (chkreg a) fun _ => by cases taken <;> rfl

theorem retInternal_setOperands (s : State) :
    retInternal (s.setOperands opa opb) = Handled.setOperands opa opb (retInternal s) :=
  bind_eq_map_bind_same (readMem s s.spAddr) fun _ =>
    bind_eq_map_bind (incSp_setOperands opa opb s) fun _ => rfl

/-- Under `OperandA`, RET reads its register from OPA, so that latch has to stay (44_subroutine.md R131). -/
theorem retOperandA_setOperands (s : State) :
    retOperandA (s.setOperands s.opa opb) = Handled.setOperands s.opa opb (retOperandA s) :=
  bind_eq_map_bind_same (chkreg s.opa) fun r =>
    bind_eq_map_bind (popInto_setOperands s.opa opb s r) fun _ => rfl

/-- No instruction reads the operand latches but RET, which reads OPA (30_encoding.md R63; 92_eei_decisions.md D20). -/
theorem exec_setOperands (h : exec i s = .next t) (hret : i = .ret → opa = s.opa) :
    exec i (s.setOperands opa opb) = .next (t.setOperands opa opb) := by
  have ends {o o' : Handled} := complete_setOperands (s := s) (t := t) opa opb (o := o) (o' := o')
  cases i with
  | ldi a imm => exact ends (bind_eq_map_bind_same (chkreg a) fun _ => rfl) h
  | prn a => exact ends (bind_eq_map_bind_same (chkreg a) fun _ => rfl) h
  | add a b => exact ends (aluHandler_setOperands opa opb .add a b s) h
  | mul a b => exact ends (aluHandler_setOperands opa opb .mul a b s) h
  | push a =>
    exact ends (bind_eq_map_bind_same (chkreg a) fun r => bind_eq_map_bind (decSp_setOperands opa opb s) fun u =>
      bind_eq_map_bind (writeMem_setOperands opa opb u u.spAddr (u.reg r)) fun _ => rfl) h
  | pop a =>
    exact ends (bind_eq_map_bind_same (chkreg a) fun r => bind_eq_map_bind (popInto_setOperands opa opb s r) fun _ => rfl) h
  | call a =>
    exact ends (bind_eq_map_bind_same (chkreg a) fun r => bind_eq_map_bind (decSp_setOperands opa opb s) fun u =>
      bind_eq_map_bind (writeMem_setOperands opa opb u u.spAddr (returnAddress s)) fun _ => rfl) h
  | ret =>
    obtain rfl := hret rfl
    refine ends ?_ h
    simp only [State.setOperands, latch_config]
    cases s.config.retScratch with
    | operandA => exact retOperandA_setOperands opb s
    | internal => exact retInternal_setOperands s.opa opb s
  | jmp a => exact ends (jumpWhen_setOperands opa opb true a s) h
  | jeq a => exact ends (jumpWhen_setOperands opa opb (equalHolds (s.reg flagsReg)) a s) h
  | jne a => exact ends (jumpWhen_setOperands opa opb (notEqualHolds (s.reg flagsReg)) a s) h
  | cmp a b => exact ends (aluHandler_setOperands opa opb .cmp a b s) h
  | hlt => exact ends (o := .ok (s, .halted)) rfl h

end Sys2Proof.Machine

open Sys2Proof Sys2Proof.Machine

/-- Settles O38: a fault entry keeps every register, and an effect every one that its instruction may not write. -/
theorem onlyNamedRegistersChange : Obligations.OnlyNamedRegistersChange := by
  intro i s t q h hq
  exact (exec_inv h).elim (fun hf => handlerFault_reg hf q) fun he => effect_reg he hq

/-- Settles O42: every handler commutes with a change of the operand latches, RET's with one of OPB. -/
theorem unusedOperandBytesAreIgnored : Obligations.UnusedOperandBytesAreIgnored := by
  intro i s t opa opb h hret
  exact exec_setOperands opa opb h hret
end

section
/-! PROOFS. The program image format (30_encoding.md R72): the digits of a byte, a line and its token, and the text of a list of
lines in front of any other text. -/

namespace Sys2Proof.Machine

/-! ## The digits of a byte -/

/-- The binary digit of a bit. -/
def bitDigit (bit : Bool) : Char := if bit then '1' else '0'

/-- The digits are those of the bits of the byte's value, the highest first. -/
theorem byteDigits_eq (b : Byte) : byteDigits b = (List.range 8).reverse.map fun k => bitDigit (b.toNat.testBit k) := rfl

/-- Reading the lowest `k` digits of `n` on top of `acc`. -/
theorem binaryValue_digits (n k acc : Nat) :
    binaryValue acc ((List.range k).reverse.map fun j => bitDigit (n.testBit j)) = some (acc * 2 ^ k + n % 2 ^ k) := by
  induction k generalizing acc with
  | zero => simp [binaryValue, Nat.mod_one]
  | succ k ih =>
    have hdigit (bit : Bool) (cs : List Char) :
        binaryValue acc (bitDigit bit :: cs) = binaryValue (2 * acc + bit.toNat) cs := by cases bit <;> rfl
    simp only [List.range_succ, List.reverse_append, List.reverse_singleton, List.singleton_append, List.map_cons]
    rw [hdigit, ih, Nat.mod_pow_succ, ← Nat.toNat_testBit, Nat.pow_succ]
    congr 1
    ring

/-- The token that a byte is written as reads as the byte. -/
theorem tokenByte_byteDigits (b : Byte) : tokenByte (byteDigits b) = some b := by
  have hvalue : binaryValue 0 (byteDigits b) = some (b.toNat % 2 ^ 8) := by
    rw [byteDigits_eq, binaryValue_digits, Nat.zero_mul, Nat.zero_add]
  have hlen : (byteDigits b).length = 8 := rfl
  rw [tokenByte, if_pos hlen, hvalue, Nat.mod_eq_of_lt b.isLt, Option.map_some, BitVec.ofNat_toNat, BitVec.setWidth_eq]

theorem mem_byteDigits {b : Byte} {c : Char} (h : c ∈ byteDigits b) : c = '1' ∨ c = '0' := by
  obtain ⟨k, -, rfl⟩ := List.mem_map.1 h
  exact ite_eq_or_eq _ _ _

/-! ## A line and its token -/

/-- The line's text before its comment. -/
def ImageLine.content (l : ImageLine) : List Char :=
  match l.byte with
  | some b => byteDigits b ++ [' ']
  | none => []

/-- The line's comment with its `#`. -/
def ImageLine.remark (l : ImageLine) : List Char :=
  match l.comment with
  | some c => '#' :: c
  | none => []

theorem imageLine_text (l : ImageLine) : l.text = l.content ++ l.remark ++ ['\n'] := by
  cases l; rfl

variable {l : ImageLine} {c : Char}

theorem mem_content (h : c ∈ l.content) : c = '1' ∨ c = '0' ∨ c = ' ' := by
  unfold ImageLine.content at h
  split at h
  · rcases List.mem_append.1 h with h | h
    · exact (mem_byteDigits h).elim .inl fun h0 => .inr (.inl h0)
    · exact .inr (.inr (List.mem_singleton.1 h))
  · exact absurd h List.not_mem_nil

/-- A line's text holds no line end but its last character. -/
theorem newline_not_mem_line (hl : l.oneLine) : '\n' ∉ l.content ++ l.remark := by
  intro h
  rcases List.mem_append.1 h with h | h
  · exact absurd (mem_content h) (by decide)
  · unfold ImageLine.remark at h
    split at h
    · rename_i c hc
      exact hl c hc ((List.mem_cons.1 h).resolve_left (by decide))
    · exact absurd h List.not_mem_nil

/-- What stands before the comment is the line's content (30_encoding.md R72). -/
theorem takeWhile_line (l : ImageLine) : (l.content ++ l.remark).takeWhile (fun c => c != '#') = l.content := by
  have hcontent : ∀ c ∈ l.content, (c != '#') = true := fun c hc => by
    rcases mem_content hc with rfl | rfl | rfl <;> decide
  have hremark : l.remark.takeWhile (fun c => c != '#') = [] := by
    unfold ImageLine.remark
    split <;> rfl
  rw [List.takeWhile_append_of_pos hcontent, hremark, List.append_nil]

/-- A string that begins with a digit has no white space to drop. -/
theorem dropWhile_isBlank_digits {digits : List Char} (hne : digits ≠ []) (h : ∀ c ∈ digits, c = '1' ∨ c = '0')
    (cs : List Char) : (digits ++ cs).dropWhile isBlank = digits ++ cs := by
  obtain ⟨c, digits, rfl⟩ := List.exists_cons_of_ne_nil hne
  rcases h c List.mem_cons_self with rfl | rfl <;> rfl

theorem byteDigits_ne_nil (b : Byte) : byteDigits b ≠ [] := List.cons_ne_nil _ _

/-- The token of a line with a byte is the byte's digits. -/
theorem lineToken_of_some {b : Byte} (h : l.byte = some b) : lineToken (l.content ++ l.remark) = byteDigits b := by
  have hcontent : l.content = byteDigits b ++ [' '] := by simp only [ImageLine.content, h]
  have hfront := dropWhile_isBlank_digits (byteDigits_ne_nil b) (fun _ => mem_byteDigits) [' ']
  have hback : (byteDigits b ++ [' ']).reverse.dropWhile isBlank = (byteDigits b).reverse := by
    have hdigits := dropWhile_isBlank_digits (List.reverse_ne_nil_iff.2 (byteDigits_ne_nil b))
      (fun c hc => mem_byteDigits (List.mem_reverse.1 hc)) []
    rw [List.append_nil] at hdigits
    rw [List.reverse_append]
    exact hdigits
  rw [lineToken, takeWhile_line, hcontent, hfront, hback, List.reverse_reverse]

/-- A line without a byte holds no token. -/
theorem lineToken_of_none (h : l.byte = none) : lineToken (l.content ++ l.remark) = [] := by
  have hcontent : l.content = [] := by simp only [ImageLine.content, h]
  rw [lineToken, takeWhile_line, hcontent]
  rfl

/-! ## The text of a list of lines -/

/-- A line in front of a text is cut off at its line end. -/
theorem splitLines_append {line : List Char} (h : '\n' ∉ line) (rest : List Char) :
    splitLines (line ++ '\n' :: rest) = line :: splitLines rest := by
  induction line with
  | nil => rfl
  | cons c line ih =>
    obtain ⟨hc, hline⟩ := not_or.1 (mt List.mem_cons.2 h)
    simp only [List.cons_append, splitLines, if_neg (Ne.symm hc), ih hline]

/-- Lines in front of a text parse to their bytes in front of the text's, and its line numbers go on from theirs. -/
theorem parseLines_imageText {ls : List ImageLine} (h : ∀ l ∈ ls, l.oneLine) (n : Nat) (rest : List Char) :
    parseLines n (splitLines (imageText ls ++ rest)) =
      (parseLines (n + ls.length) (splitLines rest)).map (ls.filterMap ImageLine.byte ++ ·) := by
  induction ls generalizing n with
  | nil =>
    exact (id_map (f := Except ErrorKind) _).symm
  | cons l ls ih =>
    obtain ⟨hl, hls⟩ := List.forall_mem_cons.1 h
    have hsplit : splitLines (imageText (l :: ls) ++ rest) =
        (l.content ++ l.remark) :: splitLines (imageText ls ++ rest) := by
      rw [← splitLines_append (newline_not_mem_line hl)]
      simp [imageText, imageLine_text]
    have hnum : n + 1 + ls.length = n + (l :: ls).length := by rw [List.length_cons]; omega
    rw [hsplit, parseLines, ih hls, hnum]
    cases hb : l.byte with
    | none => rw [if_pos (lineToken_of_none hb), List.filterMap_cons_none hb]
    | some b =>
      rw [lineToken_of_some hb, if_neg (byteDigits_ne_nil b), tokenByte_byteDigits, List.filterMap_cons_some hb]
      cases parseLines (n + (l :: ls).length) (splitLines rest) <;> rfl

end Sys2Proof.Machine

open Sys2Proof Sys2Proof.Machine

/-- Settles O49: the lines parse to their bytes, and nothing follows the last line end. -/
theorem imageTextParsesToItsBytes : Obligations.ImageTextParsesToItsBytes := by
  intro ls h
  have hparse := parseLines_imageText h 1 []
  rw [List.append_nil] at hparse
  rw [parseImage, hparse]
  exact congrArg Except.ok (List.append_nil _)
end

section
/-! PROOFS. The cycle (40_cycle.md): in which run-states a step happens, the fetch window and the dispatch of its first byte, what
each end of a cycle does to PC, and the run as a sequence of cycles. -/

namespace Sys2Proof.Machine

variable {s t : State} {i : Instr}

/-! ## In which run-states a step happens -/

theorem step_idle (h : s.runState = .idle) : step s = .fault .notStarted := by simp only [step, h]

theorem step_halted (h : s.runState = .halted) : step s = .fault .halted := by simp only [step, h]

theorem step_faulted (h : s.runState = .faulted) : step s = .fault .faulted := by simp only [step, h]

/-- Outside RUN the core stops with a fault of the model (40_cycle.md R81). -/
theorem step_fault_of_not_run (h : s.runState ≠ .run) : ∃ f, step s = .fault f := by
  cases hr : s.runState with
  | idle => exact ⟨_, step_idle hr⟩
  | run => exact absurd hr h
  | halted => exact ⟨_, step_halted hr⟩
  | faulted => exact ⟨_, step_faulted hr⟩

/-- In RUN every cycle ends in a next state, because every instruction does (40_cycle.md R88). -/
theorem step_next_of_run (h : s.runState = .run) : ∃ t, step s = .next t := by
  rw [step_run h]
  cases beginCycle s with
  | error p => exact ⟨_, rfl⟩
  | ok p =>
    obtain ⟨t, ht, -⟩ := exec_cases p.2 p.1
    exact ⟨t, ht⟩

/-! ## The fetch window and its dispatch -/

/-- A read at an offset from an address, inside memory (20_memory.md R41). -/
theorem readMem_offset {n k : Nat} (h : n + k ≤ 255) : readMem s ((n : Int) + k) = .ok (s.mem.read (n + k)) :=
  readMem_in (addr := (n : Int) + k) (by omega) (by omega)

/-- In RUN, where the byte at PC is not bound, the step is the fault entry on the fetched state (40_cycle.md R83). -/
theorem step_of_unbound (hr : s.runState = .run) (hp : s.pc.toNat ≤ 253)
    (h : s.config.opcodes.lookup (s.mem.read s.pc.toNat) = none) :
    step s = .next (takeFault s.fetched (.unknownOpcode (s.mem.read s.pc.toNat))) := by
  have hd : decode s.fetched.config.opcodes [s.fetched.ir, s.fetched.opa, s.fetched.opb] =
      .error (.unboundOpcode (s.mem.read s.pc.toNat)) := decode_unbound h _
  simp only [step_run hr, beginCycle, fetch_in hp, hd]
  rfl

/-! ## PC at the end of a cycle -/

/-- An instruction that does not fault has its effect. -/
theorem effect_of_exec (h : exec i s = .next t) (ht : t.runState ≠ .faulted) : Effect s t i := by
  rcases exec_inv h with ⟨e, -, -, rfl⟩ | he
  · exact absurd (takeFault_runState s e) ht
  · exact he

/-- Whether a conditional jump is taken depends on the flags register only, which the fetch keeps. -/
theorem jumps_fetched (s : State) (i : Instr) : jumps s.fetched i ↔ jumps s i := Iff.rfl

/-- PC after an effect: an 8-bit target for an instruction that jumps, the same PC for HLT, and the advance for every other
(40_cycle.md R85, R86, R89). -/
theorem effect_pc_cases (h : Effect s t i) :
    (jumps s i ∧ ∃ v, t.pc = pcTarget v) ∨ (i = .hlt ∧ t.pc = s.pc) ∨ (i ≠ .hlt ∧ ¬jumps s i ∧ t.pc = (advance s).pc) := by
  cases i with
  | ldi a imm =>
    obtain ⟨r, -, rfl⟩ := h
    exact .inr (.inr ⟨nofun, id, rfl⟩)
  | prn a =>
    obtain ⟨r, -, rfl⟩ := h
    exact .inr (.inr ⟨nofun, id, rfl⟩)
  | add a b =>
    obtain ⟨p, q, -, -, rfl⟩ := h
    exact .inr (.inr ⟨nofun, id, rfl⟩)
  | mul a b =>
    obtain ⟨p, q, -, -, rfl⟩ := h
    exact .inr (.inr ⟨nofun, id, rfl⟩)
  | push a =>
    obtain ⟨r, -, -, rfl⟩ := h
    exact .inr (.inr ⟨nofun, id, rfl⟩)
  | pop a =>
    obtain ⟨r, v, -, -, -, rfl⟩ := h
    exact .inr (.inr ⟨nofun, id, rfl⟩)
  | call a =>
    obtain ⟨r, -, -, rfl⟩ := h
    exact .inl ⟨trivial, _, rfl⟩
  | ret =>
    obtain ⟨v, -, ⟨-, r, -, -, rfl⟩ | ⟨-, -, rfl⟩⟩ := h <;> exact .inl ⟨trivial, v, rfl⟩
  | jmp a =>
    obtain ⟨r, -, rfl⟩ := h
    exact .inl ⟨trivial, _, rfl⟩
  | jeq a =>
    obtain ⟨r, -, ht⟩ := h
    split at ht <;> subst ht
    · exact .inl ⟨‹_›, _, rfl⟩
    · exact .inr (.inr ⟨nofun, ‹_›, rfl⟩)
  | jne a =>
    obtain ⟨r, -, ht⟩ := h
    split at ht <;> subst ht
    · exact .inl ⟨‹_›, _, rfl⟩
    · exact .inr (.inr ⟨nofun, ‹_›, rfl⟩)
  | cmp a b =>
    obtain ⟨p, q, -, -, rfl⟩ := h
    exact .inr (.inr ⟨nofun, id, rfl⟩)
  | hlt =>
    obtain rfl := h
    exact .inr (.inl ⟨rfl, rfl⟩)

/-! ## The run -/

theorem runCycles_of_not_run (h : s.runState ≠ .run) (n : Nat) : runCycles n s = s := by
  cases n with
  | zero => rfl
  | succ n =>
    obtain ⟨f, hf⟩ := step_fault_of_not_run h
    simp only [runCycles, hf]

theorem runCycles_succ (h : step s = .next t) (n : Nat) : runCycles (n + 1) s = runCycles n t := by
  simp only [runCycles, h]

/-- A run of n + k cycles is k cycles after n (40_cycle.md R81, R90). -/
theorem runCycles_add (n k : Nat) (s : State) : runCycles (n + k) s = runCycles k (runCycles n s) := by
  induction n generalizing s with
  | zero => rw [Nat.zero_add]; rfl
  | succ n ih =>
    by_cases hr : s.runState = .run
    · obtain ⟨t, ht⟩ := step_next_of_run hr
      rw [Nat.add_right_comm, runCycles_succ ht, runCycles_succ ht, ih]
    · simp only [runCycles_of_not_run hr]

/-- A state outside RUN that n cycles reach is final (60_exceptions.md R177). -/
theorem runCycles_final {n : Nat} (h : (runCycles n s).runState ≠ .run) (k : Nat) : runCycles (n + k) s = runCycles n s := by
  rw [runCycles_add, runCycles_of_not_run h]

/-- While a run is in RUN, one cycle more is one step more. -/
theorem step_runCycles {n : Nat} (h : (runCycles n s).runState = .run) : step (runCycles n s) = .next (runCycles (n + 1) s) := by
  obtain ⟨t, ht⟩ := step_next_of_run h
  rw [runCycles_add, runCycles_succ ht, ht]
  rfl

end Sys2Proof.Machine

open Sys2Proof Sys2Proof.Machine

/-- Settles O7: a step that answers a next state began in RUN, and in RUN every cycle ends in one. -/
theorem stepsExactlyInRun : Obligations.StepsExactlyInRun :=
  fun _ => ⟨⟨fun ⟨_, ht⟩ => (step_cases ht).1, step_next_of_run⟩, step_idle, step_halted, step_faulted⟩

/-- Settles O8: the three reads of the window, all inside memory or one of them at 256. -/
theorem fetchReadsTheWindowOrFaults : Obligations.FetchReadsTheWindowOrFaults := by
  refine ⟨fun s hp => ⟨s.fetched, fetch_in hp, ?_, ?_, ?_, rfl⟩, fun s hp hp' => ?_⟩
  · exact readMem_in (by omega) (by omega)
  · exact readMem_offset (k := 1) (by omega)
  · exact readMem_offset (k := 2) (by omega)
  · have hf := fetch_out hp hp'
    exact ⟨hf, fun hr => step_of_fetch_error hr hf⟩

/-- Settles O10: the step is the decoded instruction's effect on the fetched state, whose IR is the byte at the old PC. -/
theorem pcAfterACycle : Obligations.PcAfterACycle := by
  intro s t i rest hr hp hd hstep hnf
  have hexec : exec i s.fetched = .next t := (step_of_decode hr hp hd).symm.trans hstep
  rcases effect_pc_cases (effect_of_exec hexec hnf) with ⟨hj, v, hpc⟩ | ⟨rfl, hpc⟩ | ⟨hne, hj, hpc⟩
  · refine ⟨?_, fun _ => ?_, fun _ hn => absurd ((jumps_fetched s i).1 hj) hn⟩
    · rintro rfl
      exact hj.elim
    · have := v.isLt
      rw [hpc, pcTarget_toNat]
      omega
  · exact ⟨fun _ => hpc, False.elim, fun hne => absurd rfl hne⟩
  · refine ⟨fun hi => absurd hi hne, fun h => absurd ((jumps_fetched s i).2 h) hj, fun _ _ => ?_⟩
    rw [hpc]
    exact advance_toNat (s := s.fetched) hp

/-- Settles O12: a run of n + k cycles is k cycles after n, and outside RUN a cycle changes nothing. -/
theorem runStopsAtTheFirstFinalState : Obligations.RunStopsAtTheFirstFinalState := by
  intro s n
  refine ⟨runCycles_final, fun hrun => ⟨step_runCycles hrun, fun k hk => ?_⟩⟩
  by_contra hstop
  have hfinal : runCycles n s = runCycles k s := by
    rw [← Nat.add_sub_of_le hk, runCycles_final hstop]
  exact hstop (hfinal ▸ hrun)

/-- Settles O31: HLT's handler only ends its cycle in HALTED, and no other effect, nor a fault entry, leaves RUN for HALTED. -/
theorem haltOnlyByHltKeepingPc : Obligations.HaltOnlyByHltKeepingPc := by
  refine ⟨fun s => ⟨s.setRunState .halted, rfl, rfl, rfl, fun _ _ => rfl, fun _ => rfl, rfl, rfl, rfl, rfl, rfl, rfl⟩,
    fun s t i hr hexec ht => ?_⟩
  have hnf : t.runState ≠ .faulted := by simp [ht]
  rcases effect_runState (effect_of_exec hexec hnf) with hkept | ⟨hi, -, -⟩
  · exact absurd (ht.symm.trans (hkept.trans hr)) (by simp)
  · exact hi

/-- Settles O6: the fetch latches the window and dispatch runs what it decodes to. -/
theorem stepRunsTheDecodedInstruction : Obligations.StepRunsTheDecodedInstruction :=
  fun _ _ _ hr hp hd => step_of_decode hr hp hd

/-- Settles O9: the lookup of a byte that no mnemonic is bound to finds nothing, after the fetch has succeeded. -/
theorem unboundOpcodeFaultsAtDispatch : Obligations.UnboundOpcodeFaultsAtDispatch :=
  fun _ hr hp h => step_of_unbound hr hp (lookup_none.2 h)
end

section
/-! PROOFS. Load immediate and print (41_load_print.md): what LDI and PRN of a register answer, and the frame of a handler that
writes one register, or emits one element, and lets PC advance. -/

namespace Sys2Proof.Machine

theorem keepsRegsExcept_setReg (s : State) (r : Reg) (v : Byte) : KeepsRegsExcept [r] s (s.setReg r v) := fun _ hq =>
  setReg_reg_other s v (List.ne_of_not_mem_cons hq)

/-- The advance writes PC only (40_cycle.md R85). -/
theorem KeepsRest.advance {u : State} (h : KeepsRest s u) : KeepsRest s (advance u) := { h with }

/-- A handler that writes one register and continues: the cycle's whole frame (40_cycle.md R85). -/
theorem advance_setReg_frame (s : State) (r : Reg) (v : Byte) :
    KeepsRegsExcept [r] s (advance (s.setReg r v)) ∧ KeepsMemory s (advance (s.setReg r v)) ∧
      (advance (s.setReg r v)).output = s.output ∧ Advances s (advance (s.setReg r v)) ∧
      KeepsRest s (advance (s.setReg r v)) :=
  have hrest : KeepsRest s (s.setReg r v) := { KeepsRest.refl s with }
  ⟨keepsRegsExcept_setReg s r v, keepsMemory_of_mem_eq rfl, rfl, advance_advances (s.setReg r v), hrest.advance⟩

/-- A handler that emits one element and continues: no register and no byte of memory changes (10_state.md R30). -/
theorem advance_emit_frame (s : State) (v : Byte) :
    KeepsRegsExcept [] s (advance (s.emit v)) ∧ KeepsMemory s (advance (s.emit v)) ∧ Advances s (advance (s.emit v)) ∧
      KeepsRest s (advance (s.emit v)) :=
  have hrest : KeepsRest s (s.emit v) := { KeepsRest.refl s with }
  ⟨fun _ _ => rfl, keepsMemory_of_mem_eq rfl, advance_advances (s.emit v), hrest.advance⟩

/-- LDI into a register (41_load_print.md R100). -/
theorem exec_ldi_reg {s : State} {a : Byte} {r : Reg} (h : a.toNat = r.val) (imm : Byte) :
    exec (.ldi a imm) s = .next (advance (s.setReg r imm)) := by
  simp only [exec, execLdi, chkreg_reg r h, immediate, bind, Except.bind, complete]

end Sys2Proof.Machine

open Sys2Proof Sys2Proof.Machine

/-- Settles O13: LDI's handler writes the one register, with the immediate, and its cycle advances. -/
theorem ldiLoadsTheImmediate : Obligations.LdiLoadsTheImmediate := by
  intro s a imm r har
  have hvalue : (advance (s.setReg r imm)).reg r = imm := setReg_reg_same s r imm
  exact ⟨_, exec_ldi_reg har imm, hvalue, advance_setReg_frame s r imm⟩

/-- Settles O14: PRN's handler emits the register's value and writes nothing else, and its cycle advances. -/
theorem prnEmitsTheRegister : Obligations.PrnEmitsTheRegister :=
  fun s _ r har => ⟨_, exec_prn_reg har, rfl, advance_emit_frame s (s.reg r)⟩
end

section
/-! PROOFS. Arithmetic (42_arithmetic.md): what the ALU's handler does with two registers, the narrowing that raises nothing, and
what ADD and MUL of two registers answer. -/

namespace Sys2Proof.Machine

variable {s : State} {a b : Byte} {p q : Reg} {n : Nat}

/-- With two registers as operands the handler is the ALU alone (46_compare.md R150). -/
theorem aluHandler_reg (tag : AluTag) (s : State) (ha : a.toNat = p.val) (hb : b.toNat = q.val) :
    aluHandler tag a b s = (alu tag p q s).map fun t => (t, .continued) := by
  simp only [aluHandler, chkreg_reg p ha, chkreg_reg q hb, bind, Except.bind]
  cases alu tag p q s <;> rfl

/-- The narrowing raises nothing under `wrap`, nor with a result that fits (42_arithmetic.md R112). -/
theorem narrowInto_ok (r : Reg) (h : s.config.overflow = .wrap ∨ n ≤ 255) :
    narrowInto s r n = .ok (s.setReg r (BitVec.ofNat 8 n)) := by
  rcases narrowInto_cases s r n with ⟨hfault, hlt, -⟩ | ⟨-, hok⟩
  · rcases h with hwrap | hle
    · exact absurd (hwrap.symm.trans hfault) (by decide)
    · omega
  · exact hok

/-- A cycle whose ALU operation narrows a result that raises nothing writes it into the first register and advances. -/
theorem complete_aluHandler_narrowed {tag : AluTag} (ha : a.toNat = p.val) (hb : b.toNat = q.val)
    (halu : alu tag p q s = narrowInto s p n) (h : s.config.overflow = .wrap ∨ n ≤ 255) :
    complete s (aluHandler tag a b s) = .next (advance (s.setReg p (BitVec.ofNat 8 n))) := by
  rw [aluHandler_reg tag s ha hb, halu, narrowInto_ok p h]
  rfl

/-- ADD of two registers that raises nothing (42_arithmetic.md R110). -/
theorem exec_add_reg (ha : a.toNat = p.val) (hb : b.toNat = q.val)
    (h : s.config.overflow = .wrap ∨ (s.reg p).toNat + (s.reg q).toNat ≤ 255) :
    exec (.add a b) s = .next (advance (s.setReg p (BitVec.ofNat 8 ((s.reg p).toNat + (s.reg q).toNat)))) :=
  complete_aluHandler_narrowed (tag := .add) ha hb rfl h

/-- MUL of two registers that raises nothing (42_arithmetic.md R111). -/
theorem exec_mul_reg (ha : a.toNat = p.val) (hb : b.toNat = q.val)
    (h : s.config.overflow = .wrap ∨ (s.reg p).toNat * (s.reg q).toNat ≤ 255) :
    exec (.mul a b) s = .next (advance (s.setReg p (BitVec.ofNat 8 ((s.reg p).toNat * (s.reg q).toNat)))) :=
  complete_aluHandler_narrowed (tag := .mul) ha hb rfl h

/-- The register that a narrowed result was written into holds it modulo 256. -/
theorem setReg_ofNat_toNat (s : State) (r : Reg) (n : Nat) : ((s.setReg r (BitVec.ofNat 8 n)).reg r).toNat = n % 256 := by
  rw [setReg_reg_same, BitVec.toNat_ofNat]

end Sys2Proof.Machine

open Sys2Proof Sys2Proof.Machine

/-- Settles O15: ADD's handler writes the narrowed sum into the first register, which is all it writes, and its cycle advances. -/
theorem addIsTheSumModulo256 : Obligations.AddIsTheSumModulo256 :=
  fun s _ _ p _ ha hb h => ⟨_, exec_add_reg ha hb h, setReg_ofNat_toNat s p _, advance_setReg_frame s p _⟩

/-- Settles O16: MUL's handler writes the narrowed product into the first register, which is all it writes, and its cycle
advances. -/
theorem mulIsTheProductModulo256 : Obligations.MulIsTheProductModulo256 :=
  fun s _ _ p _ ha hb h => ⟨_, exec_mul_reg ha hb h, setReg_ofNat_toNat s p _, advance_setReg_frame s p _⟩
end

section
/-! PROOFS. The stack (43_stack.md): the states that PUSH and POP leave, what each register and memory read as there, and the round
trip as the composition of the two instructions' rules. -/

namespace Sys2Proof.Machine

variable {s : State} {a v : Byte} {r : Reg}

/-- Two states whose stack pointers hold the same address hold the same byte in R7. -/
theorem reg_spReg_of_spAddr_eq {t : State} (h : t.spAddr = s.spAddr) : t.reg spReg = s.reg spReg :=
  BitVec.eq_of_toNat_eq (Int.ofNat.inj h)

/-! ## PUSH -/

/-- The state that a PUSH of the byte `v` leaves before the advance (43_stack.md R121). -/
def State.pushed (s : State) (v : Byte) : State :=
  (s.setReg spReg (s.reg spReg - 1)).setMem (s.mem.write (s.spAddr - 1).toNat v)

@[simp] theorem pushed_reg_spReg (s : State) (v : Byte) : (s.pushed v).reg spReg = s.reg spReg - 1 := setReg_reg_same s _ _

/-- Above a stack pointer of 0, a PUSH lowers the address it holds by one (43_stack.md R120). -/
theorem pushed_spAddr (h1 : 1 ≤ (s.reg spReg).toNat) (v : Byte) : (s.pushed v).spAddr = s.spAddr - 1 := by
  rw [State.spAddr, pushed_reg_spReg, decremented_toNat h1, State.spAddr]
  omega

theorem readMem_pushed (hm : s.mem.wf) (h1 : 1 ≤ (s.reg spReg).toNat) (v : Byte) :
    readMem (s.pushed v) (s.spAddr - 1) = .ok v := by
  have hb := spAddr_bounds s
  exact readMem_setMem_same (s := s.setReg spReg _) hm (by rw [State.spAddr]; omega) (by omega) v

/-- PUSH of a register above a stack pointer of 0: the byte is the register's after the decrement, R7 itself included
(43_stack.md R121; 92_eei_decisions.md D9). -/
theorem exec_push (har : a.toNat = r.val) (h1 : 1 ≤ (s.reg spReg).toNat) :
    exec (.push a) s = .next (advance (s.pushed ((s.setReg spReg (s.reg spReg - 1)).reg r))) := by
  simp only [exec, execPush, chkreg_reg r har, decSp_ok h1, writeMem_spAddr, bind, Except.bind, complete, setReg_mem,
    setReg_reg_same, decremented_spReg_toNat h1, State.pushed]

/-- PUSH with R7 = 0 (60_exceptions.md R172 (b)). -/
theorem exec_push_underflow (har : a.toNat = r.val) (h0 : (s.reg spReg).toNat = 0) :
    exec (.push a) s = .next (takeFault s (.memoryOutOfBounds (-1))) := by
  simp only [exec, execPush, chkreg_reg r har, decSp_underflow h0, bind, Except.bind, complete]

/-- A PUSH and its advance: the cycle's whole frame (43_stack.md R121). -/
theorem advance_pushed_frame (hm : s.mem.wf) (h1 : 1 ≤ (s.reg spReg).toNat) (v : Byte) :
    KeepsRegsExcept [spReg] s (advance (s.pushed v)) ∧ KeepsMemoryExcept (s.spAddr - 1) s (advance (s.pushed v)) ∧
      (advance (s.pushed v)).output = s.output ∧ Advances s (advance (s.pushed v)) ∧ KeepsRest s (advance (s.pushed v)) :=
  have hrest : KeepsRest s (s.pushed v) := { KeepsRest.refl s with }
  have haddr : 0 ≤ s.spAddr - 1 := by rw [State.spAddr]; omega
  ⟨keepsRegsExcept_setReg s spReg _, keepsMemoryExcept_of_mem_write hm haddr rfl, rfl, advance_advances (s.pushed v),
    hrest.advance⟩

/-! ## POP -/

/-- The state that a POP of the byte `v` into `r` leaves before the advance: R7 is incremented after the write to `r`
(43_stack.md R122; 92_eei_decisions.md D9). -/
def State.popped (s : State) (r : Reg) (v : Byte) : State :=
  (s.setReg r v).setReg spReg ((s.setReg r v).reg spReg + 1)

/-- POP into a register whose new stack pointer is at most 255 (43_stack.md R122). -/
theorem exec_pop (har : a.toNat = r.val) (hv : readMem s s.spAddr = .ok v) (hsp : ((s.setReg r v).reg spReg).toNat ≤ 254) :
    exec (.pop a) s = .next (advance (s.popped r v)) := by
  obtain rfl : s.mem.read (s.reg spReg).toNat = v := Except.ok.inj ((readMem_spAddr s).symm.trans hv)
  simp only [exec, execPop, chkreg_reg r har, popInto_ok r hsp, bind, Except.bind, complete, State.popped]

theorem popped_reg (s : State) (hr : r ≠ spReg) (v : Byte) : (s.popped r v).reg r = v := by
  rw [State.popped, setReg_reg_other _ _ hr, setReg_reg_same]

/-- The stack pointer after a POP is one above the value that the write to the register left in it. -/
theorem popped_spAddr (hsp : ((s.setReg r v).reg spReg).toNat ≤ 254) : (s.popped r v).spAddr = (s.setReg r v).spAddr + 1 := by
  rw [State.popped, setReg_spAddr_same, incremented_toNat hsp]
  rfl

/-- A POP and its advance: the cycle's whole frame (43_stack.md R122). -/
theorem advance_popped_frame (s : State) (r : Reg) (v : Byte) :
    KeepsRegsExcept [r, spReg] s (advance (s.popped r v)) ∧ KeepsMemory s (advance (s.popped r v)) ∧
      (advance (s.popped r v)).output = s.output ∧ Advances s (advance (s.popped r v)) ∧
      KeepsRest s (advance (s.popped r v)) :=
  have hregs : KeepsRegsExcept [r, spReg] s (s.popped r v) := fun q hq => by
    simp only [List.mem_cons, List.not_mem_nil, or_false, not_or] at hq
    obtain ⟨hqr, hqsp⟩ := hq
    rw [State.popped, setReg_reg_other _ _ hqsp, setReg_reg_other _ _ hqr]
  have hrest : KeepsRest s (s.popped r v) := { KeepsRest.refl s with }
  ⟨hregs, keepsMemory_of_mem_eq rfl, rfl, advance_advances (s.popped r v), hrest.advance⟩

/-- A register listed twice is listed once. -/
theorem KeepsRegsExcept.of_pair {t : State} (h : KeepsRegsExcept [r, r] s t) : KeepsRegsExcept [r] s t := fun q hq =>
  h q (by simpa using hq)

end Sys2Proof.Machine

open Sys2Proof Sys2Proof.Machine

/-- Settles O21: PUSH stores the register's byte at the decremented stack pointer, where it is read back; the byte of R7 itself is
the decremented one. -/
theorem pushStoresBelowTheStackPointer : Obligations.PushStoresBelowTheStackPointer := by
  intro s a r har hm h1
  have hstored := readMem_pushed hm h1 ((s.setReg spReg (s.reg spReg - 1)).reg r)
  refine ⟨_, exec_push har h1, (advance_spAddr _).trans (pushed_spAddr h1 _), fun hr => ?_, fun hr => ?_,
    advance_pushed_frame hm h1 _⟩
  · exact hstored.trans (congrArg _ (setReg_reg_other s _ hr))
  · subst hr
    exact hstored

/-- Settles O22: POP writes the popped byte and then increments R7; into R7 itself, the increment is of the popped byte. -/
theorem popLoadsAtTheStackPointer : Obligations.PopLoadsAtTheStackPointer := by
  intro s a v r har hv
  refine ⟨fun hr hsp => ?_, fun hr hle => ?_⟩
  · have hkept : (s.setReg r v).reg spReg = s.reg spReg := setReg_reg_other s v (Ne.symm hr)
    rw [← hkept] at hsp
    have haddr : (s.popped r v).spAddr = s.spAddr + 1 := by rw [popped_spAddr hsp, setReg_spAddr_other s v hr]
    exact ⟨_, exec_pop har hv hsp, popped_reg s hr v, haddr, advance_popped_frame s r v⟩
  · subst hr
    rw [← setReg_reg_same s spReg v] at hle
    have haddr : (s.popped spReg v).spAddr = (v.toNat : Int) + 1 := by rw [popped_spAddr hle, setReg_spAddr_same]
    obtain ⟨hregs, hframe⟩ := advance_popped_frame s spReg v
    exact ⟨_, exec_pop har hv hle, haddr, hregs.of_pair, hframe⟩

/-- Settles O24: the POP reads the byte that the PUSH stored, at the address that the PUSH left in R7, by the rules of the two
instructions; with R7 = 0 there is no address below the stack pointer. -/
theorem pushThenPopRoundTrip : Obligations.PushThenPopRoundTrip := by
  intro s a b p q w hap hbq hm
  refine ⟨fun h1 => ?_, exec_push_underflow hap⟩
  obtain ⟨u, hpush, hsp, hother, hself, -⟩ := pushStoresBelowTheStackPointer s a p hap hm h1
  have hpop (v : Byte) (hv : readMem u (s.spAddr - 1) = .ok v) :=
    popLoadsAtTheStackPointer (u.refetched w) b v q hbq (hsp ▸ hv : readMem u u.spAddr = .ok v)
  have hu : (u.reg spReg).toNat = (s.reg spReg).toNat - 1 := by
    simp only [State.spAddr] at hsp
    omega
  have hle : (u.reg spReg).toNat ≤ 254 := by
    have := (s.reg spReg).isLt
    omega
  have hback {t : State} (ht : t.spAddr = u.spAddr + 1) : t.reg spReg = s.reg spReg :=
    reg_spReg_of_spAddr_eq (by omega)
  refine ⟨u, hpush, fun hp _ hq => ?_, fun hp hq => ?_, fun hp hq hfits => ?_⟩
  · obtain ⟨t, hexec, hreg, haddr, -, hmem, -⟩ := (hpop _ (hother hp)).1 hq hle
    exact ⟨t, hexec, hreg, hback haddr, (hmem _).trans (hother hp)⟩
  · obtain ⟨t, hexec, hreg, haddr, -⟩ := (hpop _ (hself hp)).1 hq hle
    exact ⟨t, hexec, hreg ▸ hu, hback haddr⟩
  · obtain ⟨t, hexec, haddr, -⟩ := (hpop _ (hother hp)).2 hq hfits
    exact ⟨t, hexec, Int.ofNat.inj haddr⟩
end

section
/-! PROOFS. Subroutine call and return (44_subroutine.md): CALL as a PUSH of the return address with a jump, RET as a POP with a jump
to the popped byte, and the return as the composition of the two instructions' rules. -/

namespace Sys2Proof.Machine

variable {s : State} {a v : Byte} {r : Reg}

/-! ## CALL -/

/-- The return address fits a byte where a handler can run (40_cycle.md R87). -/
theorem returnAddress_toNat (h : s.pc.toNat ≤ 253) : (returnAddress s).toNat = s.pc.toNat + 2 := by
  rw [returnAddress, BitVec.toNat_ofNat]
  omega

/-- CALL above a stack pointer of 0: the return address is pushed, and PC takes the register's value of after the decrement
(44_subroutine.md R130; 92_eei_decisions.md D9). -/
theorem exec_call (har : a.toNat = r.val) (h1 : 1 ≤ (s.reg spReg).toNat) :
    exec (.call a) s =
      .next ((s.pushed (returnAddress s)).setPc (pcTarget ((s.pushed (returnAddress s)).reg r))) := by
  simp only [exec, execCall, chkreg_reg r har, decSp_ok h1, writeMem_spAddr, bind, Except.bind, complete, setReg_mem,
    setReg_reg_same, decremented_spReg_toNat h1, State.pushed]

/-- A PUSH and a jump: all that the cycle keeps (44_subroutine.md R130). -/
theorem setPc_pushed_frame (hm : s.mem.wf) (h1 : 1 ≤ (s.reg spReg).toNat) (v : Byte) (p : Pc) :
    KeepsRegsExcept [spReg] s ((s.pushed v).setPc p) ∧ KeepsMemoryExcept (s.spAddr - 1) s ((s.pushed v).setPc p) ∧
      ((s.pushed v).setPc p).output = s.output ∧ KeepsRest s ((s.pushed v).setPc p) :=
  have ⟨hregs, hmem, hout, _, hrest⟩ := advance_pushed_frame hm h1 v
  ⟨hregs, hmem, hout, { hrest with }⟩

/-! ## RET -/

/-- RET under `OperandA` pops into the register that OPA names (44_subroutine.md R131). -/
theorem exec_ret_operandA (hc : s.config.retScratch = .operandA) (har : s.opa.toNat = r.val)
    (hv : readMem s s.spAddr = .ok v) (hsp : ((s.setReg r v).reg spReg).toNat ≤ 254) :
    exec .ret s = .next ((s.popped r v).setPc (pcTarget v)) := by
  obtain rfl : s.mem.read (s.reg spReg).toNat = v := Except.ok.inj ((readMem_spAddr s).symm.trans hv)
  simp only [exec, execRet, hc, retOperandA, chkreg_reg r har, popInto_ok r hsp, bind, Except.bind, complete, State.popped]

/-- RET under `Internal` increments R7 and writes no other register (44_subroutine.md R131). -/
theorem exec_ret_internal (hc : s.config.retScratch = .internal) (hv : readMem s s.spAddr = .ok v)
    (hsp : (s.reg spReg).toNat ≤ 254) :
    exec .ret s = .next ((s.setReg spReg (s.reg spReg + 1)).setPc (pcTarget v)) := by
  simp only [exec, execRet, hc, retInternal, hv, incSp_ok hsp, bind, Except.bind, complete]

/-- A jump, like the advance, writes PC only: what a cycle that advances from `u` keeps, one that jumps from `u` keeps
(40_cycle.md R84, R85). -/
theorem setPc_frame_of_advance {u : State} {written : List Reg} (p : Pc)
    (h : KeepsRegsExcept written s (advance u) ∧ KeepsMemory s (advance u) ∧ (advance u).output = s.output ∧
      Advances s (advance u) ∧ KeepsRest s (advance u)) :
    KeepsRegsExcept written s (u.setPc p) ∧ KeepsMemory s (u.setPc p) ∧ (u.setPc p).output = s.output ∧
      KeepsRest s (u.setPc p) :=
  have ⟨hregs, hmem, hout, _, hrest⟩ := h
  ⟨hregs, hmem, hout, { hrest with }⟩

end Sys2Proof.Machine

open Sys2Proof Sys2Proof.Machine

/-- Settles O25: CALL is a PUSH of the return address, which PC + 2 fits, and a jump to the register's value after the decrement. -/
theorem callPushesTheReturnAddress : Obligations.CallPushesTheReturnAddress := by
  intro s a r har hm hpc h1
  have haddr : (s.pushed (returnAddress s)).spAddr = s.spAddr - 1 := pushed_spAddr h1 _
  refine ⟨_, returnAddress s, exec_call har h1, haddr, readMem_pushed hm h1 _, returnAddress_toNat hpc, fun hr => ?_,
    fun hr => ?_, setPc_pushed_frame hm h1 _ _⟩
  · have hkept : (s.pushed (returnAddress s)).reg r = s.reg r := setReg_reg_other s _ hr
    rw [setPc_pc, pcTarget_toNat, hkept]
  · subst hr
    rw [setPc_pc, pcTarget_toNat]
    exact haddr

/-- Settles O26: under `OperandA` RET is a POP into the scratch register, R7 itself included, and a jump to the popped byte; under
`Internal` it is R7's increment and that jump. -/
theorem retPopsTheReturnAddress : Obligations.RetPopsTheReturnAddress := by
  intro s v hv
  have hpc : (pcTarget v).toNat = v.toNat := pcTarget_toNat v
  refine ⟨fun hc r har => ⟨fun hr hsp => ?_, fun hr hle => ?_⟩, fun hc hsp => ?_⟩
  · have hkept : (s.setReg r v).reg spReg = s.reg spReg := setReg_reg_other s v (Ne.symm hr)
    rw [← hkept] at hsp
    have haddr : (s.popped r v).spAddr = s.spAddr + 1 := by rw [popped_spAddr hsp, setReg_spAddr_other s v hr]
    exact ⟨_, exec_ret_operandA hc har hv hsp, popped_reg s hr v, haddr, hpc,
      setPc_frame_of_advance _ (advance_popped_frame s r v)⟩
  · subst hr
    rw [← setReg_reg_same s spReg v] at hle
    have haddr : (s.popped spReg v).spAddr = (v.toNat : Int) + 1 := by rw [popped_spAddr hle, setReg_spAddr_same]
    obtain ⟨hregs, hframe⟩ := setPc_frame_of_advance (pcTarget v) (advance_popped_frame s spReg v)
    exact ⟨_, exec_ret_operandA hc har hv hle, haddr, hpc, hregs.of_pair, hframe⟩
  · have haddr : (s.setReg spReg (s.reg spReg + 1)).spAddr = s.spAddr + 1 := by
      rw [setReg_spAddr_same, incremented_toNat hsp]
      rfl
    exact ⟨_, exec_ret_internal hc hv hsp, haddr, hpc, setPc_frame_of_advance _ (advance_setReg_frame s spReg _)⟩

/-- Settles O27: the RET reads the byte that the CALL stored, at the address that the CALL left in R7, by the rules of the two
instructions; R7 is at most 254 after the CALL, and so is the byte when the scratch register is R7. -/
theorem callThenRetReturns : Obligations.CallThenRetReturns := by
  intro s u v a ha hm hpc h1 hcall hreg hmem hscratch
  obtain ⟨u', ret, hcall', hsp, hstored, hret, -⟩ := callPushesTheReturnAddress s a ⟨a.toNat, ha⟩ rfl hm hpc h1
  obtain rfl : u' = u := Host.Outcome.next.inj (hcall'.symm.trans hcall)
  have hread : readMem v v.spAddr = .ok ret := by rw [hmem, hsp, hstored]
  have hle : (v.reg spReg).toNat ≤ 254 := by
    have hb := spAddr_bounds s
    have hu : ((u'.reg spReg).toNat : Int) = s.spAddr - 1 := hsp
    rw [hreg]
    omega
  obtain ⟨hoperandA, hinternal⟩ := retPopsTheReturnAddress v ret hread
  rw [← hret]
  cases hc : v.config.retScratch with
  | operandA =>
    obtain ⟨hopa, hlimit⟩ := hscratch hc
    obtain ⟨hother, hself⟩ := hoperandA hc ⟨v.opa.toNat, hopa⟩ rfl
    by_cases hr : (⟨v.opa.toNat, hopa⟩ : Reg) = spReg
    · have hfits : ret.toNat ≤ 254 := by
        have := hlimit (congrArg Fin.val hr)
        omega
      obtain ⟨t, hexec, -, htarget, -⟩ := hself hr hfits
      exact ⟨t, hexec, htarget⟩
    · obtain ⟨t, hexec, -, -, htarget, -⟩ := hother hr hle
      exact ⟨t, hexec, htarget⟩
  | internal =>
    obtain ⟨t, hexec, -, htarget, -⟩ := hinternal hc hle
    exact ⟨t, hexec, htarget⟩
end

section
/-! PROOFS. Jumps (45_jumps.md): when the flags register holds a code that a conditional jump tests for, what a jump and a jump not
taken answer, and where a target is checked. -/

namespace Sys2Proof.Machine

variable {s t : State} {i : Instr} {a b : Byte} {p q r : Reg}

/-! ## The flags -/

/-- JEQ's condition (45_jumps.md R141). -/
theorem equalHolds_iff (flags : Byte) : equalHolds flags = true ↔ flags = 1 := beq_iff_eq

/-- JNE's condition (45_jumps.md R142). -/
theorem notEqualHolds_iff (flags : Byte) : notEqualHolds flags = true ↔ flags = 2 ∨ flags = 4 := by
  rw [notEqualHolds, Bool.or_eq_true, beq_iff_eq, beq_iff_eq, flagGreater, flagLess]

/-- JEQ's condition on the comparator's code (45_jumps.md R144, 46_compare.md R152). -/
theorem equalHolds_flagcmp (l r : Byte) : equalHolds (flagcmp l r) = true ↔ l = r := by
  rcases flagcmp_cases l r with ⟨h, hcode⟩ | ⟨h, hcode⟩ | ⟨h, hcode⟩ <;> rw [hcode]
  · exact iff_of_true (by decide) h
  · exact iff_of_false (by decide) (fun he => by rw [he] at h; omega)
  · exact iff_of_false (by decide) (fun he => by rw [he] at h; omega)

/-- On the comparator's codes, of which there are three, JNE's condition is the negation of JEQ's (45_jumps.md R144). -/
theorem notEqualHolds_flagcmp (l r : Byte) : notEqualHolds (flagcmp l r) = !equalHolds (flagcmp l r) := by
  rcases flagcmp_cases l r with ⟨-, hcode⟩ | ⟨-, hcode⟩ | ⟨-, hcode⟩ <;> rw [hcode] <;> decide

/-- CMP of two registers (46_compare.md R151). -/
theorem exec_cmp_reg (ha : a.toNat = p.val) (hb : b.toNat = q.val) :
    exec (.cmp a b) s = .next (advance (s.setReg flagsReg (flagcmp (s.reg p) (s.reg q)))) := by
  rw [exec, execCmp, aluHandler_reg .cmp s ha hb]
  rfl

/-- CMP leaves the comparator's code in the flags register (46_compare.md R151). -/
theorem reg_flagsReg_of_exec_cmp (ha : a.toNat = p.val) (hb : b.toNat = q.val) (h : exec (.cmp a b) s = .next t) :
    t.reg flagsReg = flagcmp (s.reg p) (s.reg q) := by
  obtain rfl := Host.Outcome.next.inj ((exec_cmp_reg ha hb).symm.trans h)
  exact setReg_reg_same s flagsReg _

/-! ## The jumps -/

/-- A jump taken sets PC to the register's value (45_jumps.md R140). -/
theorem complete_jumpWhen_true (har : a.toNat = r.val) :
    complete s (jumpWhen true a s) = .next (s.setPc (pcTarget (s.reg r))) := by
  simp only [jumpWhen, chkreg_reg r har, bind, Except.bind, if_true, complete]

/-- A jump not taken advances (40_cycle.md R89). -/
theorem complete_jumpWhen_false (har : a.toNat = r.val) : complete s (jumpWhen false a s) = .next (advance s) := by
  simp only [jumpWhen, chkreg_reg r har, bind, Except.bind, Bool.false_eq_true, if_false, complete]

theorem exec_jmp_reg (har : a.toNat = r.val) : exec (.jmp a) s = .next (s.setPc (pcTarget (s.reg r))) :=
  complete_jumpWhen_true har

theorem exec_jeq_taken (har : a.toNat = r.val) (h : equalHolds (s.reg flagsReg) = true) :
    exec (.jeq a) s = .next (s.setPc (pcTarget (s.reg r))) := by
  rw [exec, execJeq, h, complete_jumpWhen_true har]

theorem exec_jeq_not_taken (har : a.toNat = r.val) (h : equalHolds (s.reg flagsReg) = false) :
    exec (.jeq a) s = .next (advance s) := by
  rw [exec, execJeq, h, complete_jumpWhen_false har]

theorem exec_jne_taken (har : a.toNat = r.val) (h : notEqualHolds (s.reg flagsReg) = true) :
    exec (.jne a) s = .next (s.setPc (pcTarget (s.reg r))) := by
  rw [exec, execJne, h, complete_jumpWhen_true har]

theorem exec_jne_not_taken (har : a.toNat = r.val) (h : notEqualHolds (s.reg flagsReg) = false) :
    exec (.jne a) s = .next (advance s) := by
  rw [exec, execJne, h, complete_jumpWhen_false har]

/-- A cycle that writes PC only, by a jump or by the advance: its whole frame (40_cycle.md R84, R85). -/
theorem setPc_frame (s : State) (target : Pc) :
    KeepsRegsExcept [] s (s.setPc target) ∧ KeepsMemory s (s.setPc target) ∧ (s.setPc target).output = s.output ∧
      KeepsRest s (s.setPc target) :=
  ⟨fun _ _ => rfl, keepsMemory_of_mem_eq rfl, rfl, { KeepsRest.refl s with }⟩

/-! ## The target -/

theorem pcTarget_le (v : Byte) : (pcTarget v).toNat ≤ 255 := by
  have := v.isLt
  rw [pcTarget_toNat]
  omega

/-- A control transfer that does not fault sets PC to an 8-bit target (45_jumps.md R143). -/
theorem effect_pc_le_of_jumps (h : Effect s t i) (hj : jumps s i) : t.pc.toNat ≤ 255 := by
  rcases effect_pc_cases h with ⟨-, v, hpc⟩ | ⟨rfl, -⟩ | ⟨-, hn, -⟩
  · exact hpc ▸ pcTarget_le v
  · exact hj.elim
  · exact absurd hj hn

end Sys2Proof.Machine

open Sys2Proof Sys2Proof.Machine

/-- Settles O11: the transfer checks nothing of its 8-bit target, and a fetch from 254 or 255 fails at address 256. -/
theorem jumpTargetsAreCheckedAtTheNextFetch : Obligations.JumpTargetsAreCheckedAtTheNextFetch := by
  intro s t i _ hexec ht hj
  have hle : t.pc.toNat ≤ 255 := effect_pc_le_of_jumps (effect_of_exec hexec (by simp [ht])) hj
  exact ⟨hle, fun hhigh => step_of_fetch_error ht (fetch_out hhigh (by omega))⟩

/-- Settles O20: of the comparator's codes JEQ's condition holds of the one for equality, and JNE's of the other two. -/
theorem compareThenConditionalJump : Obligations.CompareThenConditionalJump := by
  intro s t u a b c p q r hap hbq hcr hcmp hflags
  have hcode : u.reg flagsReg = flagcmp (s.reg p) (s.reg q) := hflags.trans (reg_flagsReg_of_exec_cmp hap hbq hcmp)
  have hjne : notEqualHolds (u.reg flagsReg) = !equalHolds (u.reg flagsReg) := hcode ▸ notEqualHolds_flagcmp _ _
  have hjeq : equalHolds (u.reg flagsReg) = true ↔ s.reg p = s.reg q := hcode ▸ equalHolds_flagcmp _ _
  refine ⟨fun heq => ?_, fun hne => ?_⟩
  · have htaken := hjeq.2 heq
    exact ⟨exec_jeq_taken hcr htaken, exec_jne_not_taken hcr (by rw [hjne, htaken]; rfl)⟩
  · have hnot := Bool.eq_false_iff.2 (mt hjeq.1 hne)
    exact ⟨exec_jeq_not_taken hcr hnot, exec_jne_taken hcr (by rw [hjne, hnot]; rfl)⟩

/-- Settles O28: JMP's handler sets PC to the register's value, which is all it writes. -/
theorem jmpSetsThePc : Obligations.JmpSetsThePc :=
  fun s _ _ har => ⟨_, exec_jmp_reg har, pcTarget_toNat _, setPc_frame s _⟩

/-- Settles O29: by whether JEQ's condition, that R6 is 1, holds; either way the cycle writes PC only. -/
theorem jeqJumpsExactlyOnEqual : Obligations.JeqJumpsExactlyOnEqual := by
  intro s a r har
  have hiff := equalHolds_iff (s.reg flagsReg)
  cases h : equalHolds (s.reg flagsReg) with
  | true => exact ⟨_, exec_jeq_taken har h, fun _ => pcTarget_toNat _, fun hne => absurd (hiff.1 h) hne, setPc_frame s _⟩
  | false =>
    have hne : s.reg flagsReg ≠ 1 := mt hiff.2 (Bool.eq_false_iff.1 h)
    exact ⟨_, exec_jeq_not_taken har h, fun heq => absurd heq hne, fun _ => advance_advances s, setPc_frame s _⟩

/-- Settles O30: by whether JNE's condition, that R6 is 2 or 4, holds; either way the cycle writes PC only. -/
theorem jneJumpsExactlyOnGreaterOrLess : Obligations.JneJumpsExactlyOnGreaterOrLess := by
  intro s a r har
  have hiff := notEqualHolds_iff (s.reg flagsReg)
  cases h : notEqualHolds (s.reg flagsReg) with
  | true =>
    exact ⟨_, exec_jne_taken har h, fun _ => pcTarget_toNat _, fun h2 h4 => absurd (hiff.1 h) (not_or.2 ⟨h2, h4⟩),
      setPc_frame s _⟩
  | false =>
    have hnot : ¬(s.reg flagsReg = 2 ∨ s.reg flagsReg = 4) := mt hiff.2 (Bool.eq_false_iff.1 h)
    exact ⟨_, exec_jne_not_taken har h, fun hcode => absurd hcode hnot, fun _ _ => advance_advances s, setPc_frame s _⟩
end

section
/-! PROOFS. Compare (46_compare.md): the comparator's code for each order of its operands, and the fault kinds that a step can newly
record, the ALU's own kind not among them. -/

namespace Sys2Proof.Machine

variable {s t : State} {l r : Byte}

/-! ## The comparator -/

theorem flagcmp_of_eq (h : l = r) : flagcmp l r = 1 := if_pos h

theorem flagcmp_of_gt (h : r.toNat < l.toNat) : flagcmp l r = 2 := by
  have hne : l ≠ r := fun he => Nat.ne_of_gt h (congrArg BitVec.toNat he)
  rw [flagcmp, if_neg hne, if_pos h, flagGreater]

theorem flagcmp_of_lt (h : l.toNat < r.toNat) : flagcmp l r = 4 := by
  have hne : l ≠ r := fun he => Nat.ne_of_lt h (congrArg BitVec.toNat he)
  rw [flagcmp, if_neg hne, if_neg (Nat.lt_asymm h), flagLess]

/-! ## The fault record -/

/-- The kinds of the core have neither the ALU's code (46_compare.md R153) nor the host's (60_exceptions.md R174). -/
theorem ErrorKind.raisedInCore.code_ne {c : Config} {e : ErrorKind} (h : e.raisedInCore c) : e.code ≠ 3 ∧ e.code ≠ 4 := by
  cases e with
  | unsupportedAluOperation tag => exact h.elim
  | malformedProgramLine line => exact h.elim
  | unknownOpcode _ | memoryOutOfBounds _ | illegalRegister _ | arithmeticOverflow _ => simp [code]

/-- A step keeps the fault record, or takes the fault entry of a failed fetch or of a kind of the core (60_exceptions.md R178). The
failed fetch stands apart: its address is 256 only from a PC of at most 256. -/
theorem step_faultRecord (h : step s = .next t) :
    t.faultRecord = s.faultRecord ∨ ∃ e : ErrorKind, t.faultRecord = some { kind := e, pc := s.pc } ∧
      ((∃ addr, e = .memoryOutOfBounds addr) ∨ e.raisedInCore s.config) := by
  obtain ⟨-, ⟨-, addr, -, rfl⟩ | ⟨-, hl, rfl⟩ | ⟨-, i, rest, -, hx⟩⟩ := step_inv h
  · exact .inr ⟨_, rfl, .inl ⟨addr, rfl⟩⟩
  · exact .inr ⟨_, rfl, .inr hl⟩
  · rcases exec_inv hx with ⟨e, he, -, rfl⟩ | he
    · exact .inr ⟨e, rfl, .inr he⟩
    · exact .inl (effect_faultRecord (s := s.fetched) he)

end Sys2Proof.Machine

open Sys2Proof Sys2Proof.Machine

/-- Settles O34: a record that a step newly writes is the fault entry's, whose kinds are the core's. -/
theorem unsupportedAluOperationIsUnreachable : Obligations.UnsupportedAluOperationIsUnreachable := by
  refine ⟨fun _ _ _ _ => rfl, fun s t f hstep hf hnew => ?_⟩
  rcases step_faultRecord hstep with hkept | ⟨e, hrecord, hkind⟩
  · exact absurd (hkept.symm.trans hf) hnew
  · obtain rfl : FaultRecord.mk e s.pc = f := Option.some.inj (hrecord.symm.trans hf)
    rcases hkind with ⟨addr, rfl⟩ | hcore
    · simp [ErrorKind.code]
    · exact hcore.code_ne

/-- Settles O18: the unsigned order decides the code, and any two bytes are in one of its three cases. -/
theorem flagComparatorGivesOneOfThreeCodes : Obligations.FlagComparatorGivesOneOfThreeCodes := by
  refine fun l r => ⟨flagcmp_of_eq, flagcmp_of_gt, flagcmp_of_lt, ?_⟩
  rcases flagcmp_cases l r with ⟨-, hcode⟩ | ⟨-, hcode⟩ | ⟨-, hcode⟩
  · exact .inl hcode
  · exact .inr (.inl hcode)
  · exact .inr (.inr hcode)

/-- Settles O19: CMP's handler writes the comparator's code into R6, which is all it writes, and its cycle advances. -/
theorem cmpSetsTheFlags : Obligations.CmpSetsTheFlags := by
  intro s a b p q ha hb
  have hexec := exec_cmp_reg (s := s) ha hb
  have hcode := reg_flagsReg_of_exec_cmp ha hb hexec
  exact ⟨_, hexec, fun h => hcode.trans (flagcmp_of_eq h), fun h => hcode.trans (flagcmp_of_gt h),
    fun h => hcode.trans (flagcmp_of_lt h), advance_setReg_frame s flagsReg _⟩
end

section
/-! PROOFS. Fatal errors (60_exceptions.md): the state that a faulting cycle leaves, and for each kind that a handler raises the
operands and registers that make it take the fault entry, in the order of R179. -/

namespace Sys2Proof.Machine

variable {s t : State} {i : Instr} {a b n : Byte} {p q r : Reg} {e : ErrorKind} {k : Nat}

/-! ## The fault entry -/

theorem ErrorKind.code_bounds (e : ErrorKind) : 1 ≤ e.code ∧ e.code ≤ 6 := by
  cases e <;> simp [code]

/-- The codes of the core are the six without the ALU's and the host's (60_exceptions.md R170). -/
theorem ErrorKind.raisedInCore.code_eq {c : Config} (h : e.raisedInCore c) :
    e.code = 1 ∨ e.code = 2 ∨ e.code = 5 ∨ e.code = 6 := by
  have hne := h.code_ne
  have hbounds := e.code_bounds
  omega

/-- A step that ends in FAULTED took the fault entry, with a kind of the core, on the state before the cycle or on that state
with the fetched latches: no handler's write is in it (60_exceptions.md R178). -/
theorem step_eq_takeFault (h : step s = .next t) (ht : t.runState = .faulted) (hp : s.pc.toNat ≤ 256) :
    ∃ e : ErrorKind, e.raisedInCore s.config ∧ (t = takeFault s e ∨ t = takeFault s.fetched e) := by
  obtain ⟨hr, ⟨hhigh, addr, hf, rfl⟩ | ⟨-, hl, rfl⟩ | ⟨-, i, rest, -, hx⟩⟩ := step_inv h
  · have haddr : addr = 256 := by simpa [fetch_out hhigh hp, eq_comm] using hf
    exact ⟨.memoryOutOfBounds addr, .inr haddr, .inl rfl⟩
  · exact ⟨.unknownOpcode (s.mem.read s.pc.toNat), hl, .inr rfl⟩
  · rcases exec_inv hx with ⟨e, he, -, rfl⟩ | he
    · exact ⟨e, he, .inr rfl⟩
    · rcases effect_runState he with hrs | ⟨-, hrs, -⟩
      · exact absurd (ht.symm.trans (hrs.trans hr)) (by simp)
      · exact absurd (ht.symm.trans hrs) (by simp)

/-! ## IllegalRegister -/

/-- A handler that begins with the check of an illegal operand does nothing after it (60_exceptions.md R175). -/
theorem complete_chkreg_illegal (hn : 8 ≤ n.toNat) (handler : Reg → Handled) :
    complete s (chkreg n >>= handler) = .next (takeFault s (.illegalRegister n)) := by
  rw [chkreg_illegal hn]
  rfl

/-- Every instruction's first operand byte, where it has one, names a register and is checked before anything else
(30_encoding.md R63, 60_exceptions.md R179). -/
theorem exec_illegal_operandA (hi : i.operandBytes.head? = some n) (hn : 8 ≤ n.toNat) :
    exec i s = .next (takeFault s (.illegalRegister n)) := by
  cases i with
  | ret | hlt => exact nomatch hi
  | ldi _ _ | prn _ | add _ _ | mul _ _ | push _ | pop _ | call _ | jmp _ | jeq _ | jne _ | cmp _ _ =>
    obtain rfl := Option.some.inj hi
    exact complete_chkreg_illegal hn _

/-- An illegal operand B, behind a legal A, is found before the ALU runs (60_exceptions.md R179). -/
theorem complete_aluHandler_illegal_operandB (tag : AluTag) (ha : a.toNat < 8) (hb : 8 ≤ b.toNat) :
    complete s (aluHandler tag a b s) = .next (takeFault s (.illegalRegister b)) := by
  rw [aluHandler, chkreg_reg ⟨a.toNat, ha⟩ rfl]
  exact complete_chkreg_illegal hb _

/-- Under `OperandA` RET checks the byte after it (44_subroutine.md R131). -/
theorem exec_ret_illegal (hc : s.config.retScratch = .operandA) (hn : 8 ≤ s.opa.toNat) :
    exec .ret s = .next (takeFault s (.illegalRegister s.opa)) := by
  rw [exec, execRet, hc]
  exact complete_chkreg_illegal hn _

/-! ## The bounds of the stack -/

/-- CALL with R7 = 0 (60_exceptions.md R172 (b)). -/
theorem exec_call_underflow (har : a.toNat = r.val) (h0 : (s.reg spReg).toNat = 0) :
    exec (.call a) s = .next (takeFault s (.memoryOutOfBounds (-1))) := by
  simp only [exec, execCall, chkreg_reg r har, decSp_underflow h0, bind, Except.bind, complete]

/-- A pop into a register other than R7 increments the old R7 (60_exceptions.md R172 (c)). -/
theorem popInto_overflow_of_ne (hr : r ≠ spReg) (h : (s.reg spReg).toNat = 255) :
    popInto s r = .error (.memoryOutOfBounds 256) :=
  popInto_overflow r (by rw [setReg_reg_other _ _ hr.symm, h])

/-- A pop into R7 increments the popped byte (60_exceptions.md R172 (c); 92_eei_decisions.md D9). -/
theorem popInto_overflow_spReg (h : readMem s s.spAddr = .ok 255) : popInto s spReg = .error (.memoryOutOfBounds 256) := by
  have hread : s.mem.read (s.reg spReg).toNat = 255 := Except.ok.inj ((readMem_spAddr s).symm.trans h)
  exact popInto_overflow spReg (by rw [setReg_reg_same, hread]; rfl)

theorem exec_pop_of_popInto_error (har : a.toNat = r.val) (h : popInto s r = .error e) :
    exec (.pop a) s = .next (takeFault s e) := by
  simp only [exec, execPop, chkreg_reg r har, h, bind, Except.bind, complete]

theorem exec_ret_of_popInto_error (hc : s.config.retScratch = .operandA) (har : s.opa.toNat = r.val)
    (h : popInto s r = .error e) : exec .ret s = .next (takeFault s e) := by
  simp only [exec, execRet, hc, retOperandA, chkreg_reg r har, h, bind, Except.bind, complete]

theorem exec_ret_internal_overflow (hc : s.config.retScratch = .internal) (h : (s.reg spReg).toNat = 255) :
    exec .ret s = .next (takeFault s (.memoryOutOfBounds 256)) := by
  simp only [exec, execRet, hc, retInternal, readMem_spAddr, incSp_overflow h, bind, Except.bind, complete]

/-! ## ArithmeticOverflow -/

/-- A cycle whose ALU operation narrows a result above 255 under the policy `fault` (60_exceptions.md R176). -/
theorem complete_aluHandler_overflow {tag : AluTag} (ha : a.toNat = p.val) (hb : b.toNat = q.val)
    (halu : alu tag p q s = narrowInto s p k) (hc : s.config.overflow = .fault) (hk : 255 < k) :
    complete s (aluHandler tag a b s) = .next (takeFault s (.arithmeticOverflow k)) := by
  have hnarrow : narrowInto s p k = .error (.arithmeticOverflow k) := if_pos ⟨hc, hk⟩
  rw [aluHandler_reg tag s ha hb, halu, hnarrow]
  rfl

/-- Under `wrap` a step that ends with an ArithmeticOverflow in the record found it there (60_exceptions.md R176). -/
theorem step_keeps_overflow_record_of_wrap {pc : Pc} (hc : s.config.overflow = .wrap) (h : step s = .next t)
    (hf : t.faultRecord = some { kind := .arithmeticOverflow k, pc := pc }) : s.faultRecord = t.faultRecord := by
  rcases step_faultRecord h with hkept | ⟨e, hrecord, hkind⟩
  · exact hkept.symm
  · obtain ⟨rfl, -⟩ := FaultRecord.mk.inj (Option.some.inj (hrecord.symm.trans hf))
    rcases hkind with ⟨addr, haddr⟩ | ⟨hfault, -⟩
    · exact nomatch haddr
    · exact absurd (hc.symm.trans hfault) (by decide)

end Sys2Proof.Machine

open Sys2Proof Sys2Proof.Machine

/-- Settles O17: the narrowing raises exactly for a result above 255 under `fault`, and `wrap` is no policy under which the core's
kinds hold an ArithmeticOverflow. -/
theorem arithmeticOverflowOnlyUnderFaultPolicy : Obligations.ArithmeticOverflowOnlyUnderFaultPolicy := by
  refine ⟨fun s a b p q ha hb hc => ⟨?_, ?_, fun hle => ?_, fun hle => ?_⟩,
    fun _ _ _ _ hc hstep hf => step_keeps_overflow_record_of_wrap hc hstep hf⟩
  · exact complete_aluHandler_overflow (tag := .add) ha hb rfl hc
  · exact complete_aluHandler_overflow (tag := .mul) ha hb rfl hc
  · exact ⟨_, exec_add_reg ha hb (.inr hle), rfl⟩
  · exact ⟨_, exec_mul_reg ha hb (.inr hle), rfl⟩

/-- Settles O33: the fault entry, on the state before the cycle or the fetched one, writes the run-state and the record only. -/
theorem faultEntryIsPrecise : Obligations.FaultEntryIsPrecise := by
  intro s t h ht hp
  obtain ⟨e, he, rfl | rfl⟩ := step_eq_takeFault h ht hp <;>
    exact ⟨fun _ _ => rfl, fun _ => rfl, rfl, rfl, rfl, rfl, e, rfl, he, he.code_eq⟩

/-- Settles O35: a failed fetch or dispatch runs no handler, and a handler that finds an illegal operand, A before B, neither moves
the stack pointer nor narrows a result. -/
theorem firstFaultInOrderIsReported : Obligations.FirstFaultInOrderIsReported := by
  refine ⟨fun s hr hp hp' => step_of_fetch_error hr (fetch_out hp hp'),
    fun s hr hp h => step_of_unbound hr hp (lookup_none.2 h),
    fun s a b ha _ => ⟨exec_illegal_operandA rfl ha, exec_illegal_operandA rfl ha, exec_illegal_operandA rfl ha⟩,
    fun s a ha _ => ⟨exec_illegal_operandA rfl ha, exec_illegal_operandA rfl ha⟩,
    fun s a ha _ => ⟨exec_illegal_operandA rfl ha, ?_⟩,
    fun s a b _ ha hb =>
      ⟨complete_aluHandler_illegal_operandB .add ha hb, complete_aluHandler_illegal_operandB .mul ha hb⟩⟩
  rintro rfl hc
  exact exec_ret_illegal hc ha

/-- Settles O23: the stack pointer's decrement fails at 0, and its increment, after the pop's write to its register, at 255. -/
theorem stackBoundsFault : Obligations.StackBoundsFault := by
  refine ⟨fun s a ha h0 => ⟨?_, ?_⟩, fun s a r har => ⟨fun hr h => ?_, ?_⟩, fun s hc h => exec_ret_internal_overflow hc h,
    fun s r hc har => ⟨fun hr h => ?_, ?_⟩⟩
  · exact exec_push_underflow (r := ⟨a.toNat, ha⟩) rfl h0
  · exact exec_call_underflow (r := ⟨a.toNat, ha⟩) rfl h0
  · exact exec_pop_of_popInto_error har (popInto_overflow_of_ne hr h)
  · rintro rfl h
    exact exec_pop_of_popInto_error har (popInto_overflow_spReg h)
  · exact exec_ret_of_popInto_error hc har (popInto_overflow_of_ne hr h)
  · rintro rfl h
    exact exec_ret_of_popInto_error hc har (popInto_overflow_spReg h)

/-- Settles O32: the illegal byte is the instruction's first operand, the second of ADD, MUL and CMP, or the one that RET reads
from OPA. -/
theorem illegalRegisterOperandFaults : Obligations.IllegalRegisterOperandFaults := by
  intro s n x hn
  have first {i : Instr} (hi : i.operandBytes.head? = some n) : exec i s = .next (takeFault s (.illegalRegister n)) :=
    exec_illegal_operandA hi hn
  have second (tag : AluTag) (hx : x.toNat < 8) :
      complete s (aluHandler tag x n s) = .next (takeFault s (.illegalRegister n)) :=
    complete_aluHandler_illegal_operandB tag hx hn
  refine ⟨first rfl, first rfl, first rfl, second .add, first rfl, second .mul, first rfl, first rfl, first rfl, ?_, first rfl,
    first rfl, first rfl, first rfl, second .cmp⟩
  rintro rfl hc
  exact exec_ret_illegal hc hn
end

section
/-! PROOFS. Malformed program lines (60_exceptions.md R174): a token that reads as a byte is that byte's digits, and a line with any
other token ends the parse with its number. -/

namespace Sys2Proof.Machine

variable {b : Byte} {n acc : Nat} {token bad : List Char}

/-- A string of binary digits reads as a number exactly by the number's lowest bits, and what it was read on top of are the bits
above them. -/
theorem eq_digits_of_binaryValue {digits : List Char} (h : binaryValue acc digits = some n) :
    digits = (List.range digits.length).reverse.map (fun k => bitDigit (n.testBit k)) ∧ n / 2 ^ digits.length = acc := by
  induction digits generalizing acc with
  | nil => exact ⟨rfl, (Nat.div_one n).trans (Option.some.inj h).symm⟩
  | cons c digits ih =>
    obtain ⟨bit, rfl, hrest⟩ : ∃ bit : Bool, c = bitDigit bit ∧ binaryValue (2 * acc + bit.toNat) digits = some n := by
      rw [binaryValue] at h
      split at h
      next hzero => exact ⟨false, hzero, h⟩
      next =>
        split at h
        next hone => exact ⟨true, hone, h⟩
        next => exact nomatch h
    obtain ⟨hdigits, hhigh⟩ := ih hrest
    have hbit : n.testBit digits.length = bit := by
      rw [Nat.testBit_eq_decide_div_mod_eq, hhigh]
      cases bit <;> simp [Nat.add_mod]
    have hacc : n / 2 ^ (digits.length + 1) = acc := by
      have hlt := bit.toNat_lt
      rw [Nat.pow_succ, ← Nat.div_div_eq_div_mul, hhigh]
      omega
    refine ⟨?_, hacc⟩
    rw [List.length_cons, List.range_succ, List.reverse_append, List.reverse_singleton, List.singleton_append, List.map_cons,
      hbit, ← hdigits]

/-- A token that reads as a byte is the byte's digits (30_encoding.md R72). -/
theorem eq_byteDigits_of_tokenByte (h : tokenByte token = some b) : token = byteDigits b := by
  rw [tokenByte] at h
  split at h
  next hlen =>
    obtain ⟨n, hvalue, rfl⟩ := Option.map_eq_some_iff.1 h
    obtain ⟨hdigits, hhigh⟩ := eq_digits_of_binaryValue hvalue
    rw [hlen] at hdigits hhigh
    have hn : (BitVec.ofNat 8 n).toNat = n := by
      rw [BitVec.toNat_ofNat]
      omega
    rw [hdigits, byteDigits_eq, hn]
  next => exact nomatch h

/-- A token that is no byte's digits reads as no byte (60_exceptions.md R174). -/
theorem tokenByte_eq_none (h : ∀ b, token ≠ byteDigits b) : tokenByte token = none :=
  Option.eq_none_iff_forall_ne_some.2 fun b hb => h b (eq_byteDigits_of_tokenByte hb)

/-- The parse ends at a line whose token is no byte's digits, with that line's number. -/
theorem parseLines_malformed (hne : lineToken bad ≠ []) (h : ∀ b, lineToken bad ≠ byteDigits b) (n : Nat)
    (rest : List (List Char)) : parseLines n (bad :: rest) = .error (.malformedProgramLine n) := by
  rw [parseLines, if_neg hne, tokenByte_eq_none h]

end Sys2Proof.Machine

open Sys2Proof Sys2Proof.Machine

/-- Settles O50: the good lines parse and number the bad one, at which the parse ends; the boot answers its error before it
resets, loads or runs anything. -/
theorem malformedLineIsReportedBeforeExecution : Obligations.MalformedLineIsReportedBeforeExecution := by
  intro s ls bad rest hls hbad hne htoken
  have hparse : parseImage (imageText ls ++ bad ++ '\n' :: rest) = .error (.malformedProgramLine (ls.length + 1)) := by
    rw [parseImage, List.append_assoc, parseLines_imageText hls, splitLines_append hbad, parseLines_malformed hne htoken,
      Nat.add_comm]
    rfl
  refine ⟨hparse, ?_, rfl⟩
  rw [bootText, hparse]
end

section
/-! PROOFS. Boot (70_reset_and_hazards.md R202): what memory reads as once bytes are placed in it, the load of an image as one placing of
its bytes, and the image that is too long. -/

namespace Sys2Proof.Machine

variable {s : State} {a k : Nat} {b : Byte} {bs image : List Byte} {m : Memory}

/-! ## The bytes placed -/

theorem placeBytes_cons (ha : a ≤ 255) (m : Memory) (b : Byte) (bs : List Byte) :
    placeBytes m a (b :: bs) = placeBytes (m.write a b) (a + 1) bs := by
  rw [placeBytes, if_pos ha]

/-- An address below the first byte placed reads as before. -/
theorem read_placeBytes_below (hm : m.wf) (h : a + bs.length ≤ 256) (hk : k < a) : (placeBytes m a bs).read k = m.read k := by
  induction bs generalizing m a with
  | nil => rfl
  | cons b bs ih =>
    rw [List.length_cons] at h
    have ha : a ≤ 255 := by omega
    rw [placeBytes_cons ha, ih (write_wf hm ha b) (by omega) (by omega), read_write hm, if_neg (by omega)]

/-- The byte at offset `k` from the first address is the `k`-th byte placed, or the old one past the last. -/
theorem read_placeBytes_offset (hm : m.wf) (h : a + bs.length ≤ 256) (k : Nat) :
    (placeBytes m a bs).read (a + k) = bs.getD k (m.read (a + k)) := by
  induction bs generalizing m a k with
  | nil => rfl
  | cons b bs ih =>
    rw [List.length_cons] at h
    have ha : a ≤ 255 := by omega
    have hm' := write_wf hm ha b
    rw [placeBytes_cons ha]
    cases k with
    | zero =>
      have hfirst : (placeBytes (m.write a b) (a + 1) bs).read a = b := by
        rw [read_placeBytes_below hm' (by omega) (by omega), read_write hm, if_pos rfl]
      exact hfirst
    | succ k =>
      rw [← Nat.add_assoc, Nat.add_right_comm, ih hm' (by omega), read_write hm, if_neg (by omega), List.getD_cons_succ]

/-! ## The load of an image -/

theorem hostLoadFrom_cons_in (h : s.runState = .idle) (ha : a ≤ 255) (b : Byte) (bs : List Byte) :
    hostLoadFrom s a (b :: bs) = hostLoadFrom (s.setMem (s.mem.write a b)) (a + 1) bs := by
  rw [hostLoadFrom, hostLoad_in h (Int.natCast_nonneg a) (by omega), Int.toNat_natCast]

/-- An image that fits is loaded as one placing of its bytes, and nothing else changes. -/
theorem hostLoadFrom_in (h : s.runState = .idle) (hlen : a + bs.length ≤ 256) :
    hostLoadFrom s a bs = .ok (s.setMem (placeBytes s.mem a bs)) := by
  induction bs generalizing s a with
  | nil => rfl
  | cons b bs ih =>
    rw [List.length_cons] at hlen
    have ha : a ≤ 255 := by omega
    rw [hostLoadFrom_cons_in h ha, placeBytes_cons ha]
    exact ih h (by omega)

/-- The load of an image that does not fit ends at address 256, the first outside memory. -/
theorem hostLoadFrom_out (h : s.runState = .idle) (ha : a ≤ 256) (hlen : 256 < a + bs.length) :
    hostLoadFrom s a bs = .error (.rejected (.memoryOutOfBounds 256)) := by
  induction bs generalizing s a with
  | nil => exact absurd hlen (by simpa using ha)
  | cons b bs ih =>
    rw [List.length_cons] at hlen
    rcases Nat.lt_or_eq_of_le ha with hlt | rfl
    · rw [hostLoadFrom_cons_in h (by omega)]
      exact ih h hlt (by omega)
    · rw [hostLoadFrom, hostLoad_out h (by omega)]
      rfl

/-! ## Boot -/

/-- The state that boot leaves: reset, the image's bytes from address 0 on, RUN. -/
theorem boot_in (s : State) (h : image.length ≤ 256) :
    boot s image = .ok (((hostReset s).setMem (placeBytes [] 0 image)).setRunState .run) := by
  rw [boot, hostLoadFrom_in rfl (by omega)]
  rfl

theorem boot_out (s : State) (h : 256 < image.length) : boot s image = .error (.rejected (.memoryOutOfBounds 256)) := by
  rw [boot, hostLoadFrom_out rfl (by omega) (by omega)]

/-- Memory with only an image in it reads as the image, and as 0 past its end. -/
theorem read_image (h : image.length ≤ 256) (k : Nat) : (placeBytes [] 0 image).read k = image.getD k 0 := by
  have hread := read_placeBytes_offset (a := 0) (bs := image) wf_nil (by omega) k
  rwa [Nat.zero_add] at hread

end Sys2Proof.Machine

open Sys2Proof Sys2Proof.Machine

/-- Settles O47: the load of an image that fits is one placing of its bytes in the reset memory, and that of a longer one ends at
address 256. -/
theorem bootLoadsTheImageAndRuns : Obligations.BootLoadsTheImageAndRuns := by
  intro s image
  refine ⟨fun hlen => ⟨_, boot_in s hlen, fun k hk => ?_, rfl, rfl, by simp, fun r hr => ?_, rfl, rfl, rfl,
    hostLoad_not_idle (by simp)⟩, boot_out s⟩
  · rw [readMem_in (Int.natCast_nonneg k) (by omega), Int.toNat_natCast]
    exact congrArg Except.ok (read_image hlen k)
  · simp [hr]
end
